-- ==== Sys2Proof/Word.lean ====
section
/-! DEFINITION. The two word widths of the block (00_scope.md R7, 30_encoding.md R29). -/

namespace Sys2Proof

/-- A byte: the accumulator, an input byte, a ROM entry and a ROM index are all this wide (R7, `WIDTH` = 8). -/
abbrev Byte := BitVec 8

/-- A command word on the port `cmd`: ten bits `{clr, en, din[7:0]}` (30_encoding.md R29, R34). -/
abbrev CmdWord := BitVec 10

end Sys2Proof
end

