-- ==== Sys2Proof/Syntax.lean ====
section
/-! DEFINITION. The command set, whole: one constructor per row of spec/opcode_table.json (30_encoding.md R30). -/

namespace Sys2Proof

/-- The four commands (30_encoding.md R30). `din` is the only operand a command carries (R32); HOLD and CLEAR
carry none, since their eight low bits are ignored (R31). -/
inductive Instr where
  /-- `HOLD`: keep `ACC` (43_commands.md R62). -/
  | hold
  /-- `UPDATE din`: fold `din` into `ACC` (43_commands.md R64). -/
  | update (din : Byte)
  /-- `CLEAR`: initialise `ACC` (43_commands.md R63). -/
  | clear
  /-- `START din`: initialise, then fold `din` (43_commands.md R65). -/
  | start (din : Byte)
  deriving DecidableEq, Repr

end Sys2Proof
end

