-- ==== Sys2Proof/WellFormed.lean ====
section
/-! DEFINITION. What is well formed: every command is (30_encoding.md R33, R37); the numbers that stand for a command
word or for a byte outside the machine are, when they fit ten and eight bits (R29, R34, R35). -/

namespace Sys2Proof

/-- Every term of `Instr` is a legal command: "Every value of `din` from 0x00 to 0xFF is a legal input byte"
(30_encoding.md R37), and there is no reserved or illegal command (R33). -/
def Instr.wellFormed : Instr → Bool
  | .hold => true
  | .update _ => true
  | .clear => true
  | .start _ => true

/-- A number is a command word when it fits the ten-bit port: `cmd = clr·512 + en·256 + din` (30_encoding.md R29, R34). -/
def isWordNumber (n : Nat) : Bool := n < 1024

/-- A number is a `<byte>` of the assembly language when it is from 0 to 255 (30_encoding.md R35). -/
def isByteNumber (n : Nat) : Bool := n < 256

end Sys2Proof
end

