-- ==== Sys2Proof/Decode.lean ====
section
/-! DEFINITION. The command word's fields, the decoder, total on the 1024 words (30_encoding.md R29 to R34), and after it
the encoder. -/

namespace Sys2Proof

/-! ## Fields (30_encoding.md R29) -/

/-- `cmd[9]`, the strobe `clr`. -/
def CmdWord.clr (w : CmdWord) : Bool := w.getLsbD 9

/-- `cmd[8]`, the strobe `en`. -/
def CmdWord.en (w : CmdWord) : Bool := w.getLsbD 8

/-- `cmd[7:0]`, the input byte, used as it stands (30_encoding.md R32). -/
def CmdWord.din (w : CmdWord) : Byte := w.extractLsb' 0 8

/-- The word with given fields, `{clr, en, din}` (30_encoding.md R29). -/
def CmdWord.ofFields (clr en : Bool) (din : Byte) : CmdWord := (BitVec.ofBool clr ++ BitVec.ofBool en) ++ din

/-! ## Decoding -/

/-- The command a word spells (30_encoding.md R30): `{clr, en}` selects it; no word is illegal (R33). -/
def decode (w : CmdWord) : Instr :=
  match CmdWord.clr w, CmdWord.en w with
  | false, false => .hold
  | false, true => .update (CmdWord.din w)
  | true, false => .clear
  | true, true => .start (CmdWord.din w)

/-- Why a number is no command. -/
inductive DecodeReject where
  /-- The number needs more than ten bits, and "Every command is exactly one 10-bit word" (30_encoding.md R34).
  Raised by `decodeNumber` only; the port itself cannot carry such a number. Safe. -/
  | widerThanTheCommandPort (n : Nat)
  deriving DecidableEq, Repr

/-- The command a number spells: `cmd = clr·512 + en·256 + din` (30_encoding.md R29); log 8. -/
def decodeNumber (n : Nat) : Except DecodeReject Instr :=
  if isWordNumber n then .ok (decode (BitVec.ofNat 10 n)) else .error (.widerThanTheCommandPort n)

/-- The instruction read from the `nbits` low bits of the number `w`, bits numbered as in spec/opcode_table.json (log 8). -/
def decodeTableWord (nbits w : Nat) : Option Instr :=
  match decodeNumber (w % 2 ^ nbits) with
  | .ok i => some i
  | .error _ => none

/-! ## Encoding -/

/-- The canonical word of a command (30_encoding.md R30, R31: HOLD is 0x000, UPDATE 0x100 + din, CLEAR 0x200,
START 0x300 + din). -/
def encode : Instr → CmdWord
  | .hold => CmdWord.ofFields false false 0x00#8
  | .update din => CmdWord.ofFields false true din
  | .clear => CmdWord.ofFields true false 0x00#8
  | .start din => CmdWord.ofFields true true din

/-- The mnemonic of a command (30_encoding.md R30, R35). -/
def Instr.mnemonic : Instr → String
  | .hold => "HOLD"
  | .update _ => "UPDATE"
  | .clear => "CLEAR"
  | .start _ => "START"

/-! ## The opcode map (30_encoding.md R30) -/

/-- One row of the opcode map: a word encodes the row's command when `(w AND mask) = value`. -/
structure OpcodeRow where
  mnemonic : String
  value : CmdWord
  mask : CmdWord
  deriving DecidableEq, Repr

/-- A word spells the command of a row (30_encoding.md R30, last paragraph). -/
def OpcodeRow.spells (r : OpcodeRow) (w : CmdWord) : Bool := w &&& r.mask == r.value

/-- The four rows of the opcode map (30_encoding.md R30). -/
def opcodeMap : List OpcodeRow :=
  [{ mnemonic := "HOLD", value := 0x000#10, mask := 0x300#10 },
   { mnemonic := "UPDATE", value := 0x100#10, mask := 0x300#10 },
   { mnemonic := "CLEAR", value := 0x200#10, mask := 0x300#10 },
   { mnemonic := "START", value := 0x300#10, mask := 0x300#10 }]

end Sys2Proof
end

