-- ==== Sys2Proof/Config.lean ====
section
/-! DEFINITION. The build-time configuration (00_scope.md R5) and the fixed constants (R7, R8). -/

namespace Sys2Proof

/-- What is fixed when an instance is built. There is exactly one parameter (00_scope.md R5). -/
structure Config where
  /-- `LOOKUP_TABLE`: `false` builds the bitwise variant, `true` the table-driven one (R2, R5). -/
  lookupTable : Bool
  deriving DecidableEq, Repr

/-- The default build: "default is bitwise" (00_scope.md R5). -/
def Config.default : Config := { lookupTable := false }

/-- `POLY`, the low eight coefficients of x^8 + x^2 + x + 1 (00_scope.md R7, 40_bitwise_engine.md R41). -/
abbrev Config.poly : Byte := 0x07#8

/-- `INIT`, the accumulator at the start of every message (00_scope.md R7). -/
abbrev Config.init : Byte := 0x00#8

/-- `SHIFTS_PER_BYTE` (00_scope.md R7). -/
abbrev Config.shiftsPerByte : Nat := 8

/-- `TABLE_SIZE` (00_scope.md R7). -/
abbrev Config.tableSize : Nat := 256

/-- `CYCLES_PER_COMMAND`, the one parameter the spec leaves open, "which no rule reads"
(00_scope.md R8, 70_reset_and_hazards.md R94): a free value; nothing in the model reads it (log 5). -/
opaque Config.cyclesPerCommand : Nat

end Sys2Proof
end

