-- ==== Sys2Proof/Machine/State.lean ====
section
/-! DEFINITION. The state of one instance of the block (10_state.md), the host's input to it (30_encoding.md R29), the
reasons a step can stop, and the state after reset (10_state.md R16). -/

namespace Sys2Proof.Machine

/-- What the host presents on the two input ports at one step (30_encoding.md R29): the reset request and the command word. -/
structure PortInput where
  /-- `rst`: 1 asserts reset, which wins over the command of the same step (70_reset_and_hazards.md R84, R85). -/
  rst : Bool
  /-- `cmd[9:0]`. -/
  cmd : CmdWord
  deriving DecidableEq, Repr

/-- The block has no exception and no fault: "the list of synchronous exception causes of the block is empty"
(60_exceptions.md R73). No constructor. -/
inductive Fault where
  deriving DecidableEq, Repr

/-- Reasons for a refusal. -/
inductive Refusal where
  /-- An instruction without a meaning, by its mnemonic. Raised by nobody: every arm of `exec` has its meaning
  (60_exceptions.md R73: no refusal outcome for any word). Safe. -/
  | notModelled (mnemonic : String)
  deriving DecidableEq, Repr

/-- One instance of the block. The spec's mutable state is the accumulator alone (10_state.md section 1, R9). -/
structure State where
  /-- `ACC`, the accumulator (10_state.md R9). -/
  acc : Byte
  /-- What the host presents at the coming steps, next first: the list of commands of 43_commands.md R66, each with
  the reset input of its step. The model's own field: the position in the sequence is state of the host (10_state.md R13; log 1). -/
  pending : List PortInput
  /-- The variant this instance was built as (00_scope.md R5). Configuration: no step changes it (log 2). -/
  build : Config
  deriving DecidableEq, Repr

/-- The machine right after reset: `ACC = 0x00` (10_state.md R16), the default build (00_scope.md R5), and nothing
presented by the host yet (log 1). -/
def State.reset : State := { acc := 0x00#8, pending := [], build := Config.default }

end Sys2Proof.Machine
end

