-- ==== Sys2Proof/Machine/Flags.lean ====
section
/-! DEFINITION. The block has no flags (10_state.md R14). The one condition bit it computes is the feedback bit of a bit
step, used inside the step and not kept. -/

namespace Sys2Proof.Machine

/-- The feedback bit `f = a[7]` of a bit step (40_bitwise_engine.md R38): the bit the shift pushes out. -/
def feedback (a : Byte) : Bool := a.getLsbD 7

end Sys2Proof.Machine
end

