-- ==== Sys2Proof/Machine/Operands.lean ====
section
/-! DEFINITION. The operand forms of the block: the truncated shift of the notation (00_scope.md section 5.1, 40_bitwise_engine.md
R44) and the operand a command takes from the accumulator (43_commands.md R61). -/

namespace Sys2Proof.Machine

/-- `a << 1` on a byte: the 9-bit value `{a, 0}` (00_scope.md section 5.1). -/
def shiftLeftOne (a : Byte) : BitVec 9 := a ++ 0#1

/-- `trunc8(v) = v[7:0]` of such a value (00_scope.md section 5.1). -/
def truncByte (v : BitVec 9) : Byte := v.extractLsb' 0 8

/-- The accumulator operand of a command, `base` of 43_commands.md R61: `INIT` when `clr` is set, `ACC` otherwise. -/
def baseOperand (clr : Bool) (acc : Byte) : Byte := if clr then Config.init else acc

end Sys2Proof.Machine
end

