-- ==== Sys2Proof/Machine/Bitwise.lean ====
section
/-! DEFINITION. The bitwise engine, from the bit step to the whole message (40_bitwise_engine.md). -/

namespace Sys2Proof.Machine

/-- The bit step `lfsr_shift` (40_bitwise_engine.md R38). -/
def lfsrShift (a : Byte) : Byte :=
  if feedback a then truncByte (shiftLeftOne a) ^^^ Config.poly else truncByte (shiftLeftOne a)

/-- `n` bit steps in succession. -/
def lfsrShifts : Nat → Byte → Byte
  | 0, t => t
  | n + 1, t => lfsrShifts n (lfsrShift t)

/-- The byte step `fold_bitwise`: one XOR, then eight bit steps (40_bitwise_engine.md R39). -/
def foldBitwise (a b : Byte) : Byte := lfsrShifts Config.shiftsPerByte (a ^^^ b)

/-- The whole-message function `pec_bitwise` (40_bitwise_engine.md R40). -/
def pecBitwise (s : List Byte) : Byte := s.foldl foldBitwise Config.init

/-- The constant that bit `j` of the operand contributes in the parallel form (40_bitwise_engine.md R45). -/
def parallelConstants : List Byte := [0x07#8, 0x0E#8, 0x1C#8, 0x38#8, 0x70#8, 0xE0#8, 0xC7#8, 0x89#8]

/-- The parallel form of the fold, as a function of `x = a XOR b` (40_bitwise_engine.md R45): the XOR of the constants
of the bits of `x` that are 1. -/
def foldParallel (x : Byte) : Byte :=
  ((List.range 8).zip parallelConstants).foldl (fun c jk => if x.getLsbD jk.1 then c ^^^ jk.2 else c) 0x00#8

/-- The operand a bit step came from, recovered from its result (40_bitwise_engine.md R47): `{f, r[7:3], r[2] XOR f, r[1] XOR f}`
with `f = r[0]`. -/
def lfsrUnshift (r : Byte) : Byte :=
  BitVec.ofBool (r.getLsbD 0) ++ r.extractLsb' 3 5 ++ BitVec.ofBool (r.getLsbD 2 ^^ r.getLsbD 0) ++
    BitVec.ofBool (r.getLsbD 1 ^^ r.getLsbD 0)

end Sys2Proof.Machine
end

