-- ==== Sys2Proof/Machine/Ops.lean ====
section
/-! DEFINITION. The shared operations: the fold of the built variant, the write of the accumulator, the result port, the
reset event, and the taking of what the host presents at a step. The block has no exception, so there is no exception entry
and no return from one (60_exceptions.md R73, R77, R78). -/

namespace Sys2Proof.Machine

/-! ## The accumulator -/

/-- The write `ACC <- v`, the only write any command makes (43_commands.md R61). -/
def State.withAcc (s : State) (v : Byte) : State := { s with acc := v }

/-- The result port `crc[7:0]`: it shows `ACC` at all times (10_state.md R10). -/
def State.crc (s : State) : Byte := s.acc

/-! ## The fold -/

/-- The byte step of the built variant (43_commands.md R60). -/
def fold (c : Config) (a b : Byte) : Byte := if c.lookupTable then foldTable a b else foldBitwise a b

/-- `exec(acc, cmd)` of 43_commands.md R61, over the fields of the command word. -/
def execWord (c : Config) (acc : Byte) (w : CmdWord) : Byte :=
  let base := baseOperand (CmdWord.clr w) acc
  if CmdWord.en w then fold c base (CmdWord.din w) else base

/-! ## The ports -/

/-- The reset event: `ACC <- 0x00`, "and nothing else" (70_reset_and_hazards.md R84). -/
def State.applyReset (s : State) : State := s.withAcc Config.init

/-- What stands on the ports when the host has nothing to say: no reset, and HOLD, "what the block does in any step in
which the host has nothing to say" (43_commands.md R62; log 3). -/
def idleInput : PortInput := { rst := false, cmd := 0x000#10 }

/-- What the host presents at this step. -/
def State.presented (s : State) : PortInput :=
  match s.pending with
  | [] => idleInput
  | p :: _ => p

/-- The state with this step's input taken from the host's list. -/
def State.taken (s : State) : State := { s with pending := s.pending.tail }

/-- The state in which the host presents the command word `w`, without reset, at the next step, before all it had to present. -/
def State.present (s : State) (w : CmdWord) : State := { s with pending := { rst := false, cmd := w } :: s.pending }

end Sys2Proof.Machine
end

