-- ==== Sys2Proof/Machine/Commands.lean ====
section
/-! DEFINITION. The meaning of the four commands (43_commands.md section 3). None raises an exception, for any state and
operand (60_exceptions.md R73). -/

namespace Sys2Proof.Machine

/-- `HOLD`: `ACC <- ACC` (43_commands.md R62). -/
def execHold (s : State) : Host.Outcome State Fault Refusal := .next (s.withAcc s.acc)

/-- `UPDATE din`: `ACC <- fold(ACC, din)` (43_commands.md R64). -/
def execUpdate (din : Byte) (s : State) : Host.Outcome State Fault Refusal :=
  .next (s.withAcc (fold s.build s.acc din))

/-- `CLEAR`: `ACC <- 0x00` (43_commands.md R63). -/
def execClear (s : State) : Host.Outcome State Fault Refusal := .next (s.withAcc Config.init)

/-- `START din`: `ACC <- fold(0x00, din)`; the old `ACC` is not read (43_commands.md R65). -/
def execStart (din : Byte) (s : State) : Host.Outcome State Fault Refusal :=
  .next (s.withAcc (fold s.build Config.init din))

end Sys2Proof.Machine
end

