-- ==== Sys2Proof/Machine/Dispatch.lean ====
section
/-! DEFINITION. One arm per command (30_encoding.md R30). -/

namespace Sys2Proof.Machine

def exec (i : Instr) (s : State) : Host.Outcome State Fault Refusal :=
  match i with
  | .hold => Sys2Proof.Machine.execHold s
  | .update din => Sys2Proof.Machine.execUpdate din s
  | .clear => Sys2Proof.Machine.execClear s
  | .start din => Sys2Proof.Machine.execStart din s

end Sys2Proof.Machine
end

