-- ==== Sys2Proof/Machine/Step.lean ====
section
/-! DEFINITION. One step of the block (43_commands.md R61, 70_reset_and_hazards.md R85), and how the host hands it a command. -/

namespace Sys2Proof.Machine

/-- One step: the block takes what the host presents; reset wins over the command of the same step
(70_reset_and_hazards.md R85); otherwise the command is executed (43_commands.md R61). -/
def step (s : State) : Host.Outcome State Fault Refusal :=
  if s.presented.rst then .next s.taken.applyReset else exec (decode s.presented.cmd) s.taken

/-- The state in which the next step runs the command of the `nbits` low bits of the number `w`. The block fetches nothing
(10_state.md R13), so the word is put first in what the host presents (log 1, log 8). -/
def State.withFetchWord (s : State) (nbits w : Nat) : State := s.present (BitVec.ofNat 10 (w % 2 ^ nbits))

end Sys2Proof.Machine
end

