-- ==== Sys2Proof/Machine/Message.lean ====
section
/-! DEFINITION. Runs of the block (43_commands.md R66), the facade `pec` (R60, R67), and the framed messages that compute
it (R67, 30_encoding.md R36). -/

namespace Sys2Proof.Machine

/-- `run(acc, words)`: the words applied in order, first to last (43_commands.md R66). -/
def run (c : Config) : Byte → List CmdWord → Byte
  | acc, [] => acc
  | acc, w :: rest => run c (execWord c acc w) rest

/-- One step on the accumulator for what stands on both input ports: reset wins (70_reset_and_hazards.md R85). -/
def execInput (c : Config) (acc : Byte) (p : PortInput) : Byte := if p.rst then Config.init else execWord c acc p.cmd

/-- A run over port inputs, resets among them. -/
def runInputs (c : Config) : Byte → List PortInput → Byte
  | acc, [] => acc
  | acc, p :: rest => runInputs c (execInput c acc p) rest

/-- The facade `pec`: it delegates to the engine of the built variant (43_commands.md R60, R67). -/
def pec (c : Config) (s : List Byte) : Byte := if c.lookupTable then pecTable s rom else pecBitwise s

/-- What a word sent without reset looks like on the ports. -/
def asInput (w : CmdWord) : PortInput := { rst := false, cmd := w }

/-- One UPDATE per byte, in input order (43_commands.md R67). -/
def updates (s : List Byte) : List Instr := s.map Instr.update

/-- The "clear first" framing of a message: CLEAR, then one UPDATE per byte (43_commands.md R67). -/
def frameClear (s : List Byte) : List Instr := .clear :: updates s

/-- The short framing of a message: START with its first byte, then UPDATE; CLEAR alone for the empty message
(43_commands.md R67, R63). -/
def frameStart : List Byte → List Instr
  | [] => [.clear]
  | b :: s => .start b :: updates s

/-- The bytes folded in since the last initialisation, given those before this step: reset, CLEAR and START begin anew,
UPDATE and START add their byte (10_state.md R9). -/
def absorb (bytes : List Byte) (p : PortInput) : List Byte :=
  if p.rst then [] else
    match decode p.cmd with
    | .hold => bytes
    | .update b => bytes ++ [b]
    | .clear => []
    | .start b => [b]

/-- The bytes folded in since the last initialisation, over a list of port inputs that follows reset (10_state.md R9). -/
def bytesSinceInit (ps : List PortInput) : List Byte := ps.foldl absorb []

end Sys2Proof.Machine
end

