-- ==== Sys2Proof/Machine/Assembler.lean ====
section
/-! DEFINITION. The assembly language of the spec: lines, pseudo-instructions and their words (30_encoding.md R35, R36). -/

namespace Sys2Proof.Machine

/-- A line of assembly, with its numbers as written (30_encoding.md R35, R36). -/
inductive AsmLine where
  /-- Nothing but spaces or a comment (log 7). -/
  | blank
  | hold
  | clear
  | update (byte : Nat)
  | start (byte : Nat)
  /-- The pseudo-instruction `PEC` (30_encoding.md R36). -/
  | pec (bytes : List Nat)
  /-- The pseudo-instruction `PECC`, "clear first" (30_encoding.md R36). -/
  | pecc (bytes : List Nat)
  deriving DecidableEq, Repr

/-- Why a line is not assembly. -/
inductive AsmReject where
  /-- No mnemonic of 30_encoding.md R35 or R36. -/
  | unknownMnemonic (word : List Char)
  /-- Not a number in hexadecimal or decimal (30_encoding.md R35). -/
  | notANumber (word : List Char)
  /-- A number above 255 (30_encoding.md R35). -/
  | notAByte (n : Nat)
  /-- HOLD or CLEAR with an operand, UPDATE or START without exactly one (30_encoding.md R35). -/
  | operandCount (n : Nat)
  deriving DecidableEq, Repr

/-- A line is well formed when each of its numbers is a `<byte>`, 0 to 255 (30_encoding.md R35). -/
def AsmLine.wellFormed : AsmLine → Bool
  | .blank => true
  | .hold => true
  | .clear => true
  | .update n => isByteNumber n
  | .start n => isByteNumber n
  | .pec ns => ns.all isByteNumber
  | .pecc ns => ns.all isByteNumber

/-- The byte a number stands for. -/
def byteOf (n : Nat) : Byte := BitVec.ofNat 8 n

/-- The commands a line stands for (30_encoding.md R35, R36). -/
def AsmLine.expand : AsmLine → List Instr
  | .blank => []
  | .hold => [.hold]
  | .clear => [.clear]
  | .update n => [.update (byteOf n)]
  | .start n => [.start (byteOf n)]
  | .pec ns => frameStart (ns.map byteOf)
  | .pecc ns => frameClear (ns.map byteOf)

/-- The words a line assembles to: the canonical word of each command (30_encoding.md R31, R35); none for a line that is
not well formed. -/
def AsmLine.assemble (l : AsmLine) : Option (List CmdWord) :=
  if l.wellFormed then some (l.expand.map encode) else none

/-! ## Text -/

/-- A space or a tab. -/
def isBlankChar (c : Char) : Bool := c == ' ' || c == '\t'

/-- The text before a `;`, which starts a comment (30_encoding.md R35). -/
def stripComment (cs : List Char) : List Char := cs.takeWhile (· != ';')

/-- The text without spaces at its ends. -/
def trimBlanks (cs : List Char) : List Char :=
  ((cs.dropWhile isBlankChar).reverse.dropWhile isBlankChar).reverse

/-- The value of a decimal digit. -/
def decDigit? (c : Char) : Option Nat :=
  if '0' ≤ c ∧ c ≤ '9' then some (c.toNat - '0'.toNat) else none

/-- The value of a hexadecimal digit, in either case (log 7). -/
def hexDigit? (c : Char) : Option Nat :=
  if 'A' ≤ c ∧ c ≤ 'F' then some (c.toNat - 'A'.toNat + 10)
  else if 'a' ≤ c ∧ c ≤ 'f' then some (c.toNat - 'a'.toNat + 10)
  else decDigit? c

/-- The number that digits write in a base, continuing from `n`. -/
def digitsFrom (digit? : Char → Option Nat) (base : Nat) : Nat → List Char → Option Nat
  | n, [] => some n
  | n, c :: cs =>
    match digit? c with
    | some d => digitsFrom digit? base (n * base + d) cs
    | none => none

/-- A number "in hexadecimal (`0xB4`) or decimal (`180`)" (30_encoding.md R35). -/
def parseNumber : List Char → Option Nat
  | [] => none
  | ['0', 'x'] => none
  | '0' :: 'x' :: ds => digitsFrom hexDigit? 16 0 ds
  | c :: ds => digitsFrom decDigit? 10 0 (c :: ds)

/-- A `<byte>` (30_encoding.md R35). -/
def parseByte (cs : List Char) : Except AsmReject Nat :=
  match parseNumber cs with
  | none => .error (.notANumber cs)
  | some n => if isByteNumber n then .ok n else .error (.notAByte n)

/-- Every `<byte>` of a list, or the first that is none. -/
def parseBytes : List (List Char) → Except AsmReject (List Nat)
  | [] => .ok []
  | cs :: rest =>
    match parseByte cs with
    | .error e => .error e
    | .ok n =>
      match parseBytes rest with
      | .error e => .error e
      | .ok ns => .ok (n :: ns)

/-- Split at commas, the piece under way first. -/
def splitCommasFrom : List Char → List Char → List (List Char)
  | piece, [] => [piece]
  | piece, c :: cs => if c == ',' then piece :: splitCommasFrom [] cs else splitCommasFrom (piece ++ [c]) cs

/-- The operands of a line, separated by commas (30_encoding.md R36): none where nothing is written. -/
def operandsOf (cs : List Char) : List (List Char) :=
  match trimBlanks cs with
  | [] => []
  | c :: rest => (splitCommasFrom [] (c :: rest)).map trimBlanks

/-- The line that a mnemonic and its operands make (30_encoding.md R35, R36). -/
def lineOf (word : List Char) (ns : List Nat) : Except AsmReject AsmLine :=
  match word, ns with
  | ['H', 'O', 'L', 'D'], [] => .ok .hold
  | ['H', 'O', 'L', 'D'], _ :: _ => .error (.operandCount ns.length)
  | ['C', 'L', 'E', 'A', 'R'], [] => .ok .clear
  | ['C', 'L', 'E', 'A', 'R'], _ :: _ => .error (.operandCount ns.length)
  | ['U', 'P', 'D', 'A', 'T', 'E'], [n] => .ok (.update n)
  | ['U', 'P', 'D', 'A', 'T', 'E'], _ => .error (.operandCount ns.length)
  | ['S', 'T', 'A', 'R', 'T'], [n] => .ok (.start n)
  | ['S', 'T', 'A', 'R', 'T'], _ => .error (.operandCount ns.length)
  | ['P', 'E', 'C'], ns => .ok (.pec ns)
  | ['P', 'E', 'C', 'C'], ns => .ok (.pecc ns)
  | w, _ => .error (.unknownMnemonic w)

/-- One line of assembly text: "one command per line" (30_encoding.md R35; log 7). -/
def parseLine (text : List Char) : Except AsmReject AsmLine :=
  match trimBlanks (stripComment text) with
  | [] => .ok .blank
  | c :: cs =>
    let word := (c :: cs).takeWhile (fun ch => !isBlankChar ch)
    match parseBytes (operandsOf ((c :: cs).dropWhile (fun ch => !isBlankChar ch))) with
    | .error e => .error e
    | .ok ns => lineOf word ns

/-- The words a text of several lines assembles to, in order (30_encoding.md R35). -/
def assembleText : List (List Char) → Except AsmReject (List CmdWord)
  | [] => .ok []
  | l :: rest =>
    match parseLine l, assembleText rest with
    | .error e, _ => .error e
    | .ok _, .error e => .error e
    | .ok line, .ok words => .ok (line.expand.map encode ++ words)

end Sys2Proof.Machine
end

