-- ==== Sys2Proof/Safety.lean ====
section
/-! DEFINITION. What a safe run is, in the terms the claims use: a step that completes (60_exceptions.md R73), and a
framed message (43_commands.md R67, 70_reset_and_hazards.md R88). -/

namespace Sys2Proof.Safety

open Sys2Proof.Machine

/-- A step of the machine answers a next state: it neither faults nor refuses. -/
def StepCompletes (s : State) : Prop := ∃ t, step s = .next t

/-- The command begins a message: "its first command must be CLEAR or START" (70_reset_and_hazards.md R88). -/
def opensMessage : Instr → Bool
  | .hold => false
  | .update _ => false
  | .clear => true
  | .start _ => true

/-- The command may stand inside a message after its first: UPDATE or HOLD (43_commands.md R67). -/
def continuesMessage : Instr → Bool
  | .hold => true
  | .update _ => true
  | .clear => false
  | .start _ => false

/-- A framed message: one command that opens it, then UPDATE commands "with any number of HOLD commands anywhere after
the first command" (43_commands.md R67). -/
def framed : List Instr → Bool
  | [] => false
  | i :: rest => opensMessage i && rest.all continuesMessage

/-- The byte a command hands over, if it folds one (43_commands.md R64, R65). -/
def byteOfCommand : Instr → Option Byte
  | .hold => none
  | .update b => some b
  | .clear => none
  | .start b => some b

/-- The bytes of a message, in input order (43_commands.md R67). -/
def messageBytes (is : List Instr) : List Byte := is.filterMap byteOfCommand

/-- The host has commands to present, each without reset. -/
def presents (s : State) (ws : List CmdWord) : State := { s with pending := ws.map asInput }

/-- The accumulator is the PEC of the bytes folded in since the last initialisation, `hist` being the port inputs since
reset (10_state.md R9). -/
def AccIsPecOf (hist : List PortInput) (s : State) : Prop := s.acc = pec s.build (bytesSinceInit hist)

/-! ## The polynomial reading (40_bitwise_engine.md R41; explanation, from general knowledge by the spec's own mark) -/

/-- The polynomial x^8 + x^2 + x + 1 over GF(2) (00_scope.md R1). -/
noncomputable def crcPoly : Polynomial (ZMod 2) := Polynomial.X ^ 8 + Polynomial.X ^ 2 + Polynomial.X + 1

/-- A byte as a polynomial: bit `i` is the coefficient of x^i (40_bitwise_engine.md R41). -/
noncomputable def bytePoly (b : Byte) : Polynomial (ZMod 2) :=
  (Finset.range 8).sum fun i => if b.getLsbD i then Polynomial.X ^ i else 0

/-- A message as a polynomial of degree below 8n, first byte most significant (40_bitwise_engine.md R41). -/
noncomputable def messagePoly (s : List Byte) : Polynomial (ZMod 2) :=
  s.foldl (fun p b => p * Polynomial.X ^ 8 + bytePoly b) 0

end Sys2Proof.Safety
end

