-- ==== Sys2Proof/Certificates/Slice0/Obligations.lean ====
section
/-! DEFINITION. The statements for the provers. Statements about commands are equations between the outcome and a full state,
so they say at once that the command completes, what it writes, and that it changes nothing else. Nothing writes the ROM: it
is a constant of the hardware (log 4). `pending`, the host's list of coming inputs, is the model's own field (log 1). -/

open Sys2Proof Sys2Proof.Machine Sys2Proof.Safety

/-! ## Reset -/

/-- 10_state.md R16: after reset `ACC` is 0x00, `crc` reads 0x00, and the state after reset is the state after CLEAR. -/
def Obligations.AfterResetAccumulatorIsZero : Prop :=
  State.reset.acc = 0x00#8 ∧ State.reset.crc = 0x00#8 ∧
  (∀ s : State, s.applyReset.acc = 0x00#8 ∧ s.applyReset.crc = 0x00#8 ∧ exec .clear s = .next s.applyReset)

/-- 70_reset_and_hazards.md R84, R85: a step with `rst` asserted sets `ACC` to 0x00 and nothing else, whichever command stands
on the port: that command is not executed. The state is the one CLEAR would leave, and `crc` is 0x00. -/
def Obligations.ResetBeatsTheCommandOfItsStep : Prop :=
  ∀ (s : State) (w : CmdWord) (rest : List PortInput), s.pending = { rst := true, cmd := w } :: rest →
    step s = .next { s with acc := 0x00#8, pending := rest } ∧
    State.crc { s with acc := 0x00#8, pending := rest } = 0x00#8 ∧
    exec .clear { s with pending := rest } = .next { s with acc := 0x00#8, pending := rest }

/-! ## One step -/

/-- A step runs the decoded command on the state with its input taken from the host's list: whatever word the host presents
without reset (log 1), the canonical word of a command among them, is executed. -/
def Obligations.StepRunsTheDecodedCommand : Prop :=
  (∀ (s : State) (w : CmdWord) (rest : List PortInput), s.pending = { rst := false, cmd := w } :: rest →
    step s = exec (decode w) { s with pending := rest }) ∧
  (∀ (s : State) (i : Instr), i.wellFormed = true → step (s.present (encode i)) = exec i s)

/-- 43_commands.md R61: a step on a command word leaves `fold(base, din)` when `en` is set and `base` otherwise, where `base` is
0x00 when `clr` is set and the old `ACC` otherwise; `crc` shows the old `ACC` before and the new one after; nothing else changes. -/
def Obligations.StepComputesExecOfTheWord : Prop :=
  ∀ (s : State) (w : CmdWord) (rest : List PortInput), s.pending = { rst := false, cmd := w } :: rest →
    ∃ t, step s = .next t ∧ s.crc = s.acc ∧ t.crc = t.acc ∧ t.pending = rest ∧ t.build = s.build ∧
      t.acc = (if w.getLsbD 8 then fold s.build (if w.getLsbD 9 then 0x00#8 else s.acc) (w.setWidth 8)
        else if w.getLsbD 9 then 0x00#8 else s.acc)

/-- 60_exceptions.md R73: no command raises an exception, for any state and any operand; the step returns the next state and
nothing else, for every one of the command words and whatever the host presents. -/
def Obligations.NoCommandFaultsOrIsRefused : Prop :=
  (∀ (i : Instr) (s : State), ∃ t, exec i s = .next t) ∧
  (∀ (s : State) (w : CmdWord), ∃ t, step (s.present w) = .next t) ∧
  (∀ s : State, StepCompletes s)

/-- 10_state.md section 2, as a rule over every step: only reset, CLEAR, UPDATE and START write the accumulator, and a step takes
one input from the host's list (log 1) and leaves the build alone. -/
def Obligations.OnlyResetClearUpdateStartWriteTheAccumulator : Prop :=
  ∀ s t : State, step s = .next t →
    t.pending = s.pending.tail ∧ t.build = s.build ∧
    (t.acc ≠ s.acc → ∃ p rest, s.pending = p :: rest ∧
      (p.rst = true ∨ decode p.cmd = .clear ∨ ∃ b, decode p.cmd = .update b ∨ decode p.cmd = .start b))

/-! ## The commands -/

/-- 43_commands.md R62: HOLD leaves the whole state alone, all 256 values of `din` spell it, and it is what the block does in a
step in which the host has nothing to say (log 3). -/
def Obligations.HoldKeepsTheState : Prop :=
  (∀ s : State, exec .hold s = .next s) ∧
  (∀ d : Byte, decode (0x000#10 ||| d.setWidth 10) = .hold) ∧
  encode .hold = 0x000#10 ∧
  (∀ s : State, s.pending = [] → step s = .next s) ∧
  (∀ s : State, s.acc = 0x5F#8 →
    step (s.present 0x000#10) = .next s ∧ step (s.present 0x0FF#10) = .next s ∧ s.crc = 0x5F#8)

/-- 43_commands.md R63: CLEAR sets `ACC` to 0x00 and changes nothing else, is idempotent, does not depend on the previous `ACC`,
and alone is the command sequence of the empty message. -/
def Obligations.ClearZeroesTheAccumulator : Prop :=
  (∀ s : State, exec .clear s = .next { s with acc := 0x00#8 }) ∧
  (∀ s : State, exec .clear { s with acc := 0x00#8 } = .next { s with acc := 0x00#8 }) ∧
  (∀ (s : State) (a : Byte), exec .clear { s with acc := a } = exec .clear s) ∧
  (∀ d : Byte, decode (0x200#10 ||| d.setWidth 10) = .clear) ∧
  encode .clear = 0x200#10 ∧
  (∀ s : State, Host.Core.run core 1 (presents s (([.clear] : List Instr).map encode)) =
    .next { s with acc := pec s.build [], pending := [] } ∧ pec s.build [] = 0x00#8)

/-- 43_commands.md R64: UPDATE folds its byte into `ACC` and changes nothing else; the value of each variant; the corner cases and
the example of the rule. -/
def Obligations.UpdateFoldsTheByte : Prop :=
  (∀ (d : Byte) (s : State), exec (.update d) s = .next { s with acc := fold s.build s.acc d }) ∧
  (∀ d : Byte, decode (0x100#10 + d.setWidth 10) = .update d ∧ encode (.update d) = 0x100#10 + d.setWidth 10) ∧
  (∀ a d : Byte, fold { lookupTable := false } a d = lfsrShift^[8] (a ^^^ d) ∧
    fold { lookupTable := true } a d = romRead (a ^^^ d) ∧ romRead (a ^^^ d) = lfsrShift^[8] (a ^^^ d)) ∧
  (∀ (c : Config) (a : Byte), fold c a a = 0x00#8) ∧
  (∀ (c : Config) (a : Byte), a ≠ 0x00#8 →
    fold c a 0x00#8 = romRead a ∧ romRead a ≠ 0x00#8 ∧ (romRead a = a ↔ a = 0xFD#8)) ∧
  (∀ c : Config, fold c 0x00#8 0x01#8 = 0x07#8 ∧ fold c 0x07#8 0x01#8 = 0x12#8) ∧
  (∀ (c : Config) (d : Byte), Function.Bijective fun a => fold c a d) ∧
  (∀ (c : Config) (a : Byte), Function.Bijective fun d => fold c a d) ∧
  (∀ s : State, s.acc = 0x05#8 → step (s.present 0x106#10) = .next { s with acc := 0x09#8 } ∧ romRead 0x03#8 = 0x09#8)

/-- 43_commands.md R65: START leaves `fold(0x00, din) = TABLE[din]` and changes nothing else, whatever the previous `ACC`;
its corner cases and example. -/
def Obligations.StartInitialisesThenFolds : Prop :=
  (∀ (d : Byte) (s : State), exec (.start d) s = .next { s with acc := fold s.build 0x00#8 d } ∧
    fold s.build 0x00#8 d = romRead d) ∧
  (∀ d : Byte, decode (0x300#10 + d.setWidth 10) = .start d ∧ encode (.start d) = 0x300#10 + d.setWidth 10) ∧
  (∀ (d a : Byte) (s : State), exec (.start d) { s with acc := a } = exec (.start d) s) ∧
  (∀ s : State, exec (.start 0x00#8) s = .next { s with acc := 0x00#8 }) ∧
  (∀ s : State, step (s.present 0x3B4#10) = .next { s with acc := 0x05#8 })

/-- 43_commands.md R65, the inference the spec marks as derived: START has exactly the effect of CLEAR followed by UPDATE. -/
def Obligations.StartIsClearThenUpdate : Prop :=
  ∀ (d : Byte) (s : State), ∃ t, exec .clear s = .next t ∧ exec (.update d) t = exec (.start d) s

/-! ## The build parameter -/

/-- 00_scope.md R5: the default build is bitwise, each value of the parameter builds its variant, and no step and no run of
steps changes it. -/
def Obligations.BuildParameterNeverChanges : Prop :=
  State.reset.build = { lookupTable := false } ∧
  (∀ a b : Byte, fold { lookupTable := false } a b = foldBitwise a b ∧ fold { lookupTable := true } a b = foldTable a b) ∧
  (∀ s t : State, step s = .next t → t.build = s.build) ∧
  (∀ (k : Nat) (s t : State), Host.Core.run core k s = .next t → t.build = s.build)

/-- 00_scope.md R6: the build parameter never affects a result. Two instances that differ in it alone, given the same inputs for
any number of steps, show the same `crc`. -/
def Obligations.VariantIsNeverObservable : Prop :=
  ∀ (k : Nat) (s s' : State), s.acc = s'.acc → s.pending = s'.pending →
    ∃ t t' : State, Host.Core.run core k s = .next t ∧ Host.Core.run core k s' = .next t' ∧
      t.crc = t'.crc ∧ t.pending = t'.pending

/-! ## Encoding -/

/-- 30_encoding.md R30: every word is spelled by exactly one row of the opcode map, and decodes to that row's command with `din`
its eight low bits. -/
def Obligations.DecodeFollowsTheOpcodeMap : Prop :=
  (∀ w : CmdWord, (opcodeMap.filter (OpcodeRow.spells · w)).map OpcodeRow.mnemonic = [(decode w).mnemonic]) ∧
  (∀ w : CmdWord, decode w = .hold ↔ w &&& 0x300#10 = 0x000#10) ∧
  (∀ (w : CmdWord) (d : Byte), decode w = .update d ↔ w = 0x100#10 + d.setWidth 10) ∧
  (∀ w : CmdWord, decode w = .clear ↔ w &&& 0x300#10 = 0x200#10) ∧
  (∀ (w : CmdWord) (d : Byte), decode w = .start d ↔ w = 0x300#10 + d.setWidth 10)

/-- 30_encoding.md R33: all 1024 words are defined, 256 of them for each command. -/
def Obligations.EachCommandHas256Words : Prop :=
  (∀ w : CmdWord, (decode w).mnemonic ∈ opcodeMap.map OpcodeRow.mnemonic) ∧
  (∀ r ∈ opcodeMap, ((List.range 1024).filter fun n => (decode (BitVec.ofNat 10 n)).mnemonic == r.mnemonic).length = 256)

/-- 30_encoding.md R31: `din` is ignored when `en` is 0, and the canonical words of HOLD and CLEAR are 0x000 and 0x200. -/
def Obligations.UnusedDinIsIgnored : Prop :=
  (∀ d : Byte, decode (CmdWord.ofFields false false d) = .hold ∧ decode (CmdWord.ofFields true false d) = .clear) ∧
  (∀ (d : Byte) (s : State), step (s.present (CmdWord.ofFields false false d)) = step (s.present 0x000#10) ∧
    step (s.present (CmdWord.ofFields true false d)) = step (s.present 0x200#10)) ∧
  encode .hold = 0x000#10 ∧ encode .clear = 0x200#10

/-- Decoding and encoding agree, both ways: every well-formed command decodes from its word with every operand, and every word
is the word of its command once the ignored bits are cleared (30_encoding.md R31). -/
def Obligations.DecodeAndEncodeAgree : Prop :=
  (∀ i : Instr, i.wellFormed = true → decode (encode i) = i) ∧
  (∀ w : CmdWord, encode (decode w) = if w.getLsbD 8 then w else w &&& 0x300#10)

/-- A few words of 95_test_vectors.md section 2.4 decode as its table says. -/
def Obligations.ListedWordsDecode : Prop :=
  decode 0b0000000000#10 = .hold ∧ decode 0b0011111111#10 = .hold ∧ decode 0b0101100110#10 = .update 0x66#8 ∧
  decode 0b1010100101#10 = .clear ∧ decode 0b1110110100#10 = .start 0xB4#8 ∧ decodeTableWord 16 0x3B4 = some (.start 0xB4#8)

/-! ## The bitwise engine -/

/-- 40_bitwise_engine.md R38: the bit step, by its formula and bit by bit, with its corner cases. -/
def Obligations.BitStepShiftsAndFeedsBack : Prop :=
  (∀ a : Byte, lfsrShift a = if a.getLsbD 7 then (a <<< 1) ^^^ 0x07#8 else a <<< 1) ∧
  (∀ a : Byte, (lfsrShift a).getLsbD 7 = a.getLsbD 6 ∧ (lfsrShift a).getLsbD 6 = a.getLsbD 5 ∧
    (lfsrShift a).getLsbD 5 = a.getLsbD 4 ∧ (lfsrShift a).getLsbD 4 = a.getLsbD 3 ∧
    (lfsrShift a).getLsbD 3 = a.getLsbD 2 ∧ (lfsrShift a).getLsbD 2 = (a.getLsbD 1 ^^ a.getLsbD 7) ∧
    (lfsrShift a).getLsbD 1 = (a.getLsbD 0 ^^ a.getLsbD 7) ∧ (lfsrShift a).getLsbD 0 = a.getLsbD 7) ∧
  lfsrShift 0x00#8 = 0x00#8 ∧ lfsrShift 0x80#8 = 0x07#8 ∧ lfsrShift 0x7F#8 = 0xFE#8 ∧ lfsrShift 0xFF#8 = 0xF9#8 ∧
  lfsrShift 0x83#8 = 0x01#8 ∧ lfsrShift 0xB4#8 = 0x6F#8

/-- 40_bitwise_engine.md R39: the byte step is one XOR and exactly eight bit steps; its corner cases and worked example. -/
def Obligations.ByteFoldIsXorThenEightBitSteps : Prop :=
  (∀ a b : Byte, foldBitwise a b = lfsrShift^[8] (a ^^^ b)) ∧
  (∀ a : Byte, foldBitwise a a = 0x00#8) ∧
  foldBitwise 0x00#8 0x01#8 = 0x07#8 ∧ foldBitwise 0x00#8 0x80#8 = 0x89#8 ∧ foldBitwise 0x00#8 0xFF#8 = 0xF3#8 ∧
  foldBitwise 0xFF#8 0x00#8 = 0xF3#8 ∧
  (List.range 9).map (fun n => lfsrShift^[n] (0x00#8 ^^^ 0xB4#8)) =
    [0xB4#8, 0x6F#8, 0xDE#8, 0xBB#8, 0x71#8, 0xE2#8, 0xC3#8, 0x81#8, 0x05#8]

/-- 40_bitwise_engine.md R39 and R45 (derived in the spec): the fold depends on its operands through their XOR only, and equals
the parallel form, by its constants and by its bit equations. -/
def Obligations.ParallelFormEqualsTheFold : Prop :=
  ∀ a b : Byte, foldBitwise a b = foldBitwise 0x00#8 (a ^^^ b) ∧ foldBitwise a b = foldBitwise (a ^^^ b) 0x00#8 ∧
    foldBitwise a b = foldParallel (a ^^^ b) ∧
    ∀ x c : Byte, x = a ^^^ b → c = foldBitwise a b →
      c.getLsbD 7 = (x.getLsbD 7 ^^ x.getLsbD 6 ^^ x.getLsbD 5) ∧
      c.getLsbD 6 = (x.getLsbD 6 ^^ x.getLsbD 5 ^^ x.getLsbD 4) ∧
      c.getLsbD 5 = (x.getLsbD 5 ^^ x.getLsbD 4 ^^ x.getLsbD 3) ∧
      c.getLsbD 4 = (x.getLsbD 4 ^^ x.getLsbD 3 ^^ x.getLsbD 2) ∧
      c.getLsbD 3 = (x.getLsbD 7 ^^ x.getLsbD 3 ^^ x.getLsbD 2 ^^ x.getLsbD 1) ∧
      c.getLsbD 2 = (x.getLsbD 6 ^^ x.getLsbD 2 ^^ x.getLsbD 1 ^^ x.getLsbD 0) ∧
      c.getLsbD 1 = (x.getLsbD 6 ^^ x.getLsbD 1 ^^ x.getLsbD 0) ∧
      c.getLsbD 0 = (x.getLsbD 7 ^^ x.getLsbD 6 ^^ x.getLsbD 0)

/-- 40_bitwise_engine.md R46 (derived in the spec): the bit step, the fold and the PEC of messages of equal length are linear
over XOR. -/
def Obligations.FoldAndPecAreLinear : Prop :=
  (∀ p q : Byte, lfsrShift (p ^^^ q) = lfsrShift p ^^^ lfsrShift q) ∧
  (∀ p q : Byte, foldBitwise 0x00#8 (p ^^^ q) = foldBitwise 0x00#8 p ^^^ foldBitwise 0x00#8 q) ∧
  (∀ a b : Byte, foldBitwise a b = foldBitwise a 0x00#8 ^^^ foldBitwise 0x00#8 b) ∧
  (∀ s t : List Byte, s.length = t.length →
    pecBitwise (List.zipWith (· ^^^ ·) s t) = pecBitwise s ^^^ pecBitwise t)

/-- 40_bitwise_engine.md R47 (derived in the spec): the bit step is a bijection with the stated inverse, and so is the fold in
either operand. -/
def Obligations.FoldIsBijectiveInEachOperand : Prop :=
  (∀ a : Byte, lfsrUnshift (lfsrShift a) = a ∧ lfsrShift (lfsrUnshift a) = a) ∧
  (∀ b : Byte, Function.Bijective fun a => foldBitwise a b) ∧
  (∀ a : Byte, Function.Bijective fun b => foldBitwise a b)

/-- 40_bitwise_engine.md R40: `pec_bitwise` starts at 0x00, folds byte after byte in input order and returns the accumulator;
its corner cases and the document's two vectors. -/
def Obligations.PecBitwiseFoldsInInputOrder : Prop :=
  pecBitwise [] = 0x00#8 ∧
  (∀ (s : List Byte) (b : Byte), pecBitwise (s ++ [b]) = foldBitwise (pecBitwise s) b) ∧
  pecBitwise [0x00#8] = 0x00#8 ∧
  pecBitwise [0xB4#8, 0x06#8, 0xAB#8, 0xCD#8] = 0x5F#8 ∧
  pecBitwise [0xB4#8, 0x06#8, 0xB5#8, 0x26#8, 0x3A#8] = 0x66#8

/-- Any number of leading 0x00 bytes leaves the PEC of a message as it is: `pec_bitwise` by 40_bitwise_engine.md R40 (a sentence
the spec marks as derived), `pec_table` of the ROM by inference from 42_table_engine.md R55 and R58. -/
def Obligations.LeadingZeroBytesAreNeutral : Prop :=
  ∀ (n : Nat) (s : List Byte), pecBitwise (List.replicate n 0x00#8 ++ s) = pecBitwise s ∧
    pecTable (List.replicate n 0x00#8 ++ s) rom = pecTable s rom

/-! ## The ROM and the table-driven engine -/

/-- 41_table_rom.md R48: entry `i` of the generated table is `pec_bitwise([i]) = fold_bitwise(0x00, i)`. -/
def Obligations.GeneratorFillsEntriesWithPecOfOneByte : Prop :=
  (∀ i : Byte, tableRead buildTable i = pecBitwise [i] ∧ tableRead buildTable i = foldBitwise 0x00#8 i) ∧
  tableRead buildTable 0x00#8 = 0x00#8 ∧ tableRead buildTable 0x01#8 = 0x07#8 ∧
  tableRead buildTable 0xFF#8 = 0xF3#8 ∧ tableRead buildTable 0xB4#8 = 0x05#8

/-- 41_table_rom.md R51, R52: the ROM's listed contents are the generated table. -/
def Obligations.RomHoldsTheGeneratedTable : Prop := rom = buildTable

/-- 41_table_rom.md R51, R53 (derived in the spec): the ROM is linear, a permutation of the 256 values, its entries XOR to 0x00,
and 0x00 and 0xFD are the only indices that hold themselves (43_commands.md R64). -/
def Obligations.RomIsALinearPermutation : Prop :=
  romRead 0x00#8 = 0x00#8 ∧
  (∀ p q : Byte, romRead (p ^^^ q) = romRead p ^^^ romRead q) ∧
  Function.Bijective romRead ∧
  rom.toList.foldl (· ^^^ ·) 0x00#8 = 0x00#8 ∧
  (∀ i : Byte, romRead i = i ↔ i = 0x00#8 ∨ i = 0xFD#8)

/-- 42_table_engine.md R54: the table-driven byte step is the entry at index `a XOR b`, with nothing XORed onto it; its corner
cases and example. -/
def Obligations.TableFoldReadsTheEntryAtTheXor : Prop :=
  (∀ a b : Byte, rom.toList[(a ^^^ b).toNat]? = some (foldTable a b)) ∧
  (∀ a : Byte, foldTable a a = 0x00#8 ∧ romRead 0x00#8 = 0x00#8) ∧
  (∀ b : Byte, foldTable 0x00#8 b = romRead b) ∧
  (∀ a : Byte, foldTable a 0x00#8 = romRead a) ∧
  foldTable 0x05#8 0x06#8 = 0x09#8 ∧ romRead 0x03#8 = 0x09#8

/-- 42_table_engine.md R55: `pec_table` starts at 0x00 and reads one entry per byte, for any table; its corner cases and example. -/
def Obligations.PecTableReadsOneEntryPerByte : Prop :=
  (∀ t : Table, pecTable [] t = 0x00#8) ∧
  (∀ (t : Table) (s : List Byte) (b : Byte), pecTable (s ++ [b]) t = tableRead t (pecTable s t ^^^ b)) ∧
  (∀ b : Byte, pecTable [b] rom = romRead b) ∧
  pecTable [0xB4#8] rom = 0x05#8 ∧ pecTable [0xB4#8, 0x06#8] rom = 0x09#8 ∧
  pecTable [0xB4#8, 0x06#8, 0xAB#8] rom = 0x67#8 ∧ pecTable [0xB4#8, 0x06#8, 0xAB#8, 0xCD#8] rom = 0x5F#8

/-- 42_table_engine.md R58: both engines produce identical output for every possible input sequence, and at the byte level. -/
def Obligations.BothEnginesAgreeOnEveryMessage : Prop :=
  (∀ s : List Byte, pecBitwise s = pecTable s buildTable) ∧
  (∀ a b : Byte, foldTable a b = foldBitwise 0x00#8 (a ^^^ b) ∧ foldTable a b = foldBitwise a b)

/-! ## Runs and messages -/

/-- 43_commands.md R66: a run is the words applied in order, whatever they are; the machine given a list of words computes it and
is then ready for the next command. -/
def Obligations.RunAppliesTheWordsInOrder : Prop :=
  (∀ (c : Config) (acc : Byte), run c acc [] = acc) ∧
  (∀ (c : Config) (acc : Byte) (w : CmdWord) (rest : List CmdWord),
    run c acc (w :: rest) = run c (execWord c acc w) rest) ∧
  (∀ (s : State) (ws : List CmdWord), Host.Core.run core ws.length (presents s ws) =
    .next { s with acc := run s.build s.acc ws, pending := [] }) ∧
  (∀ (s t : State) (ws : List CmdWord) (w : CmdWord), Host.Core.run core ws.length (presents s ws) = .next t →
    ∃ u, step (t.present w) = .next u)

/-- 43_commands.md R66 with 70_reset_and_hazards.md R85: the machine given any list of port inputs, resets among them, computes
the left-to-right composition of its steps. -/
def Obligations.RunComposesResetsAndCommands : Prop :=
  ∀ (s : State) (ps rest : List PortInput), Host.Core.run core ps.length { s with pending := ps ++ rest } =
    .next { s with acc := runInputs s.build s.acc ps, pending := rest }

/-- 43_commands.md R62 (derived in the spec): HOLD, in any of its spellings, can be inserted anywhere, any number of times, without
changing any later value of `ACC`. -/
def Obligations.InsertedHoldsChangeNothing : Prop :=
  ∀ (c : Config) (acc : Byte) (xs hs ys : List CmdWord), (∀ h ∈ hs, decode h = .hold) →
    run c acc (xs ++ hs ++ ys) = run c acc (xs ++ ys)

/-- 43_commands.md R67 (derived in the spec): every framed message, in either framing and with HOLD commands anywhere after the
first command, leaves the PEC of its bytes on `crc`, from every start state; and the two framings carry the message's bytes. -/
def Obligations.FramedMessageYieldsItsPec : Prop :=
  (∀ (s : State) (ws : List CmdWord), framed (ws.map decode) = true →
    Host.Core.run core ws.length (presents s ws) =
      .next { s with acc := pec s.build (messageBytes (ws.map decode)), pending := [] }) ∧
  (∀ m : List Byte, framed (frameClear m) = true ∧ messageBytes (frameClear m) = m ∧
    framed (frameStart m) = true ∧ messageBytes (frameStart m) = m) ∧
  (∀ (c : Config) (m : List Byte), pec c m = pecBitwise m ∧ pec c m = pecTable m rom)

/-- 10_state.md section 2: at every point between two commands `ACC` holds the PEC of the bytes folded in since the last
initialisation, in both variants. As an invariant of the step, from every state that meets it: `hist` is the port inputs since reset. -/
def Obligations.EveryStepKeepsAccThePecSinceInitialisation : Prop :=
  ∀ (hist : List PortInput) (s : State), AccIsPecOf hist s →
    (∀ p rest, s.pending = p :: rest → ∃ t, step s = .next t ∧ t.pending = rest ∧ AccIsPecOf (hist ++ [p]) t) ∧
    (s.pending = [] → ∃ t, step s = .next t ∧ AccIsPecOf hist t)

/-- The invariant of the statement above holds right after reset, where nothing has been folded in. -/
def Obligations.AccIsThePecOfNothingAfterReset : Prop :=
  AccIsPecOf [] State.reset ∧ ∀ s : State, AccIsPecOf [] s.applyReset

/-- 43_commands.md R68 (derived in the spec): in the middle of a framed message `ACC` is the PEC of the bytes folded so far, and
the message can be extended after its PEC has been read. -/
def Obligations.AccIsThePecOfThePrefix : Prop :=
  ∀ (s : State) (m n : List Byte), Host.Core.run core (m.length + 1) (presents s ((frameClear (m ++ n)).map encode)) =
    .next (presents { s with acc := pec s.build m } ((updates n).map encode))

/-- 43_commands.md R70 (derived in the spec): folding a last byte brings `ACC` to 0x00 exactly when it is the message's PEC. -/
def Obligations.ResidueIsZeroExactlyForThePec : Prop :=
  ∀ (c : Config) (s : List Byte) (b : Byte), pec c (s ++ [b]) = 0x00#8 ↔ b = pec c s

/-- 43_commands.md R71 (derived in the spec): two messages of the same length that differ in exactly one byte position have
different PECs; in particular a single flipped bit changes the PEC. -/
def Obligations.OneChangedByteChangesThePec : Prop :=
  (∀ (c : Config) (s t : List Byte) (k : Nat), s.length = t.length → s[k]? ≠ t[k]? → (∀ j, j ≠ k → s[j]? = t[j]?) →
    pec c s ≠ pec c t) ∧
  (∀ (c : Config) (u v : List Byte) (b : Byte) (j : Nat), j < 8 →
    pec c (u ++ [b ^^^ (0x01#8 <<< j)] ++ v) ≠ pec c (u ++ [b] ++ v))

/-- 43_commands.md R72 (derived in the spec): what a framed message leaves on `crc` does not depend on anything before its first
command: two instances in any two states show the same `crc` after every one of its commands. -/
def Obligations.FramedMessageForgetsThePast : Prop :=
  ∀ (s s' : State) (w : CmdWord) (ws rest : List CmdWord), opensMessage (decode w) = true →
    ∃ t t' : State, Host.Core.run core (ws.length + 1) (presents s (w :: ws ++ rest)) = .next t ∧
      Host.Core.run core (ws.length + 1) (presents s' (w :: ws ++ rest)) = .next t' ∧ t.crc = t'.crc

/-- 70_reset_and_hazards.md R86 (derived in the spec): directly after reset a message may begin with UPDATE and yields its PEC. -/
def Obligations.AfterResetUpdatesAloneYieldThePec : Prop :=
  ∀ (s : State) (m : List Byte), Host.Core.run core m.length (presents s.applyReset ((updates m).map encode)) =
    .next { s with acc := pec s.build m, pending := [] }

/-! ## The polynomial -/

/-- 40_bitwise_engine.md R41, the reading the spec marks as general knowledge: `pec_bitwise` of a message M is the remainder of
M·x^8 divided by x^8 + x^2 + x + 1 over GF(2), first byte and bit 7 most significant. -/
def Obligations.PecIsThePolynomialRemainder : Prop :=
  ∀ s : List Byte, (messagePoly s * Polynomial.X ^ 8) %ₘ crcPoly = bytePoly (pecBitwise s)

/-! ## Assembly -/

/-- 30_encoding.md R36: the expansions of the pseudo-instructions, and the `crc` each leaves from any state. -/
def Obligations.PseudoInstructionsExpandToFramedMessages : Prop :=
  (∀ (b : Byte) (bs : List Byte), AsmLine.assemble (.pec ((b :: bs).map BitVec.toNat)) =
    some ((0x300#10 + b.setWidth 10) :: bs.map fun d => 0x100#10 + d.setWidth 10)) ∧
  AsmLine.assemble (.pec []) = some [0x200#10] ∧
  (∀ bs : List Byte, AsmLine.assemble (.pecc (bs.map BitVec.toNat)) =
    some (0x200#10 :: bs.map fun d => 0x100#10 + d.setWidth 10)) ∧
  (∀ (s : State) (bs : List Byte), ∃ ws vs, AsmLine.assemble (.pec (bs.map BitVec.toNat)) = some ws ∧
    AsmLine.assemble (.pecc (bs.map BitVec.toNat)) = some vs ∧
    Host.Core.run core ws.length (presents s ws) = .next { s with acc := pec s.build bs, pending := [] } ∧
    Host.Core.run core vs.length (presents s vs) = .next { s with acc := pec s.build bs, pending := [] }) ∧
  (∀ c : Config, pec c [] = 0x00#8)

/-- 30_encoding.md section 6: the word of each line, a number above 255 refused, and the reading of a few lines of text (log 7). -/
def Obligations.AssemblyLinesGiveTheirWords : Prop :=
  AsmLine.assemble .hold = some [0x000#10] ∧ AsmLine.assemble .clear = some [0x200#10] ∧
  (∀ d : Byte, AsmLine.assemble (.update d.toNat) = some [0x100#10 + d.setWidth 10] ∧
    AsmLine.assemble (.start d.toNat) = some [0x300#10 + d.setWidth 10]) ∧
  (∀ n : Nat, 255 < n → AsmLine.assemble (.update n) = none ∧ AsmLine.assemble (.start n) = none) ∧
  assembleText ["START 0xB4 ; the address byte".toList, "UPDATE 180".toList, "HOLD".toList, "CLEAR".toList] =
    .ok [0x3B4#10, 0x1B4#10, 0x000#10, 0x200#10] ∧
  parseLine "PECC 0xB4, 0x06, 38".toList = .ok (.pecc [0xB4, 0x06, 38])
end

