-- ==== Sys2Proof/Laws/Decode.lean ====
section
/-! SUPPORT. What the decoder and the fields of a word answer. -/

namespace Sys2Proof

/-- The fields of a word with given fields are those fields. -/
theorem CmdWord.fields_ofFields (clr en : Bool) (din : Byte) :
    CmdWord.clr (CmdWord.ofFields clr en din) = clr ∧ CmdWord.en (CmdWord.ofFields clr en din) = en ∧
      CmdWord.din (CmdWord.ofFields clr en din) = din := by
  have all : ∀ d : Byte, ∀ c e : Bool, CmdWord.clr (CmdWord.ofFields c e d) = c ∧
      CmdWord.en (CmdWord.ofFields c e d) = e ∧ CmdWord.din (CmdWord.ofFields c e d) = d := by decide
  exact all din clr en

/-- The decoder's answer, by the two strobes. -/
theorem decode_of_strobes (w : CmdWord) :
    (CmdWord.clr w = false → CmdWord.en w = false → decode w = .hold) ∧
    (CmdWord.clr w = false → CmdWord.en w = true → decode w = .update (CmdWord.din w)) ∧
    (CmdWord.clr w = true → CmdWord.en w = false → decode w = .clear) ∧
    (CmdWord.clr w = true → CmdWord.en w = true → decode w = .start (CmdWord.din w)) := by
  refine ⟨?_, ?_, ?_, ?_⟩ <;> · intro hc he; simp only [decode, hc, he]

/-- A number below 1024 decodes as its word; any other is rejected by name. -/
theorem decodeNumber_spec (n : Nat) :
    (n < 1024 → decodeNumber n = .ok (decode (BitVec.ofNat 10 n))) ∧
    (1024 ≤ n → decodeNumber n = .error (.widerThanTheCommandPort n)) := by
  constructor
  · intro h; simp [decodeNumber, isWordNumber, h]
  · intro h; simp [decodeNumber, isWordNumber, Nat.not_lt.mpr h]

end Sys2Proof
end

