-- ==== Sys2Proof/Laws/Fold.lean ====
section
/-! SUPPORT. What the folds, the ROM and the message functions compute. -/

namespace Sys2Proof.Machine

/-- A read of the ROM is the bitwise fold of the index from zero, entry by entry. -/
theorem romRead_eq (i : Byte) : romRead i = foldBitwise 0x00#8 i := by
  have all : ∀ j : Byte, romRead j = foldBitwise 0x00#8 j := by decide
  exact all i

/-- The bitwise fold depends on its operands through their XOR only (40_bitwise_engine.md R39). -/
theorem foldBitwise_zero_xor (a b : Byte) : foldBitwise 0x00#8 (a ^^^ b) = foldBitwise a b := by
  simp [foldBitwise]

/-- The fold of the built variant is the bitwise fold, whichever the variant. -/
theorem fold_eq (c : Config) (a b : Byte) : fold c a b = foldBitwise a b := by
  cases h : c.lookupTable
  · simp [fold, h]
  · simp [fold, h, foldTable, romRead_eq, foldBitwise_zero_xor]

/-- A run over a list in two parts is the run over the second part from where the first ends. -/
theorem run_append (c : Config) (acc : Byte) (xs ys : List CmdWord) :
    run c acc (xs ++ ys) = run c (run c acc xs) ys := by
  induction xs generalizing acc with
  | nil => rfl
  | cons w rest ih => exact ih (execWord c acc w)

/-- The same for a run over port inputs. -/
theorem runInputs_append (c : Config) (acc : Byte) (xs ys : List PortInput) :
    runInputs c acc (xs ++ ys) = runInputs c (runInputs c acc xs) ys := by
  induction xs generalizing acc with
  | nil => rfl
  | cons p rest ih => exact ih (execInput c acc p)

/-- A run without resets is the run over its words. -/
theorem runInputs_asInput (c : Config) (acc : Byte) (ws : List CmdWord) :
    runInputs c acc (ws.map asInput) = run c acc ws := by
  induction ws generalizing acc with
  | nil => rfl
  | cons w rest ih => exact ih (execWord c acc w)

/-- One more input adds what it absorbs. -/
theorem bytesSinceInit_snoc (ps : List PortInput) (p : PortInput) :
    bytesSinceInit (ps ++ [p]) = absorb (bytesSinceInit ps) p := by
  simp [bytesSinceInit]

end Sys2Proof.Machine
end

