-- ==== Sys2Proof/Laws/PerInstr.lean ====
section
/-! SUPPORT. The per-instruction family: the canonical word of a command stands in the command's own row of the opcode map
(30_encoding.md R30). -/

namespace Sys2Proof.Laws.EncodedInItsRow

/-- Some row of the opcode map has the command's mnemonic and is spelled by its canonical word. -/
def Statement (i : Instr) : Prop := ∃ r ∈ opcodeMap, r.mnemonic = i.mnemonic ∧ r.spells (encode i) = true

theorem hold : Statement .hold := ⟨opcodeMap[0], by decide, rfl, by decide⟩

theorem update (din : Byte) : Statement (.update din) :=
  ⟨opcodeMap[1], by decide, rfl, by revert din; decide⟩

theorem clear : Statement .clear := ⟨opcodeMap[2], by decide, rfl, by decide⟩

theorem start (din : Byte) : Statement (.start din) :=
  ⟨opcodeMap[3], by decide, rfl, by revert din; decide⟩

end Sys2Proof.Laws.EncodedInItsRow
end

