-- ==== Sys2Proof/Laws/State.lean ====
section
/-! SUPPORT. One lemma per field per update of the state. -/

namespace Sys2Proof.Machine

@[simp] theorem State.withAcc_acc (s : State) (v : Byte) : (s.withAcc v).acc = v := rfl
@[simp] theorem State.withAcc_pending (s : State) (v : Byte) : (s.withAcc v).pending = s.pending := rfl
@[simp] theorem State.withAcc_build (s : State) (v : Byte) : (s.withAcc v).build = s.build := rfl
@[simp] theorem State.withAcc_self (s : State) : s.withAcc s.acc = s := rfl
@[simp] theorem State.withAcc_withAcc (s : State) (v w : Byte) : (s.withAcc v).withAcc w = s.withAcc w := rfl

@[simp] theorem State.applyReset_acc (s : State) : s.applyReset.acc = 0x00#8 := rfl
@[simp] theorem State.applyReset_pending (s : State) : s.applyReset.pending = s.pending := rfl
@[simp] theorem State.applyReset_build (s : State) : s.applyReset.build = s.build := rfl

@[simp] theorem State.taken_acc (s : State) : s.taken.acc = s.acc := rfl
@[simp] theorem State.taken_pending (s : State) : s.taken.pending = s.pending.tail := rfl
@[simp] theorem State.taken_build (s : State) : s.taken.build = s.build := rfl

@[simp] theorem State.present_acc (s : State) (w : CmdWord) : (s.present w).acc = s.acc := rfl
@[simp] theorem State.present_pending (s : State) (w : CmdWord) :
    (s.present w).pending = { rst := false, cmd := w } :: s.pending := rfl
@[simp] theorem State.present_build (s : State) (w : CmdWord) : (s.present w).build = s.build := rfl

@[simp] theorem State.presented_present (s : State) (w : CmdWord) :
    (s.present w).presented = { rst := false, cmd := w } := rfl
@[simp] theorem State.taken_present (s : State) (w : CmdWord) : (s.present w).taken = s := rfl

/-- With nothing to say, the host presents HOLD without reset, and taking that changes nothing. -/
theorem State.idle (s : State) (h : s.pending = []) : s.presented = idleInput ∧ s.taken = s := by
  cases s
  cases h
  exact ⟨rfl, rfl⟩

/-- The first of the host's list is what is presented, and the rest remains. -/
theorem State.presented_cons (s : State) (p : PortInput) (rest : List PortInput) (h : s.pending = p :: rest) :
    s.presented = p ∧ s.taken = { s with pending := rest } := by
  cases s
  cases h
  exact ⟨rfl, rfl⟩

end Sys2Proof.Machine
end

