-- ==== Sys2Proof/Laws/Step.lean ====
section
/-! SUPPORT. What a command and a step can do, said once. -/

namespace Sys2Proof.Machine

/-- The value a command leaves in the accumulator (43_commands.md R62 to R65). -/
def accAfter (c : Config) (acc : Byte) : Instr → Byte
  | .hold => acc
  | .update din => fold c acc din
  | .clear => 0x00#8
  | .start din => fold c 0x00#8 din

/-- A command writes the accumulator, nothing else, and always answers a next state. -/
theorem exec_eq (i : Instr) (s : State) : exec i s = .next (s.withAcc (accAfter s.build s.acc i)) := by
  cases i <;> rfl

/-- The fields of a word give the accumulator what its command gives it (43_commands.md R61). -/
theorem execWord_eq (c : Config) (acc : Byte) (w : CmdWord) : execWord c acc w = accAfter c acc (decode w) := by
  cases hc : CmdWord.clr w <;> cases he : CmdWord.en w <;> simp [execWord, baseOperand, decode, accAfter, hc, he]

/-- Everything a step can do, from what stands on the ports: the accumulator takes what reset or the command gives it, the
input is taken from the host's list, and nothing else changes. -/
theorem step_eq (s : State) :
    step s = .next { acc := execInput s.build s.acc s.presented, pending := s.pending.tail, build := s.build } := by
  cases h : s.presented.rst
  · simp [step, h, exec_eq, execInput, execWord_eq, State.withAcc, State.taken]
  · simp [step, h, execInput, State.applyReset, State.withAcc, State.taken]

/-- With nothing to say, a step changes nothing (43_commands.md R62). -/
theorem step_idle (s : State) (h : s.pending = []) : step s = .next s := by
  obtain ⟨hp, ht⟩ := s.idle h
  simp only [step, hp, ht]
  rfl

end Sys2Proof.Machine
end

