-- ==== Sys2Proof/Tests/Slice0.lean ====
section
/-! SUPPORT. Tests of the model, with expected results from 95_test_vectors.md and the examples of the rules, and a witness of
the hypotheses of every statement that has some. -/

namespace Sys2Proof.Tests

open Sys2Proof.Machine Sys2Proof.Safety

/-! ## Helpers -/

/-- An instance with a given accumulator, in the bitwise (`false`) or table-driven (`true`) build. -/
def instanceAt (acc : Byte) (lookupTable : Bool) : State :=
  { acc := acc, pending := [], build := { lookupTable := lookupTable } }

/-- The accumulator a step leaves, if it answers a next state. -/
def accOf (o : Host.Outcome State Fault Refusal) : Option Byte :=
  match o with
  | .next s => some s.acc
  | .fault _ => none
  | .refused _ => none

/-- What the word leaves of the accumulator in both builds (95_test_vectors.md section 2.4). -/
def wordGives (acc : Byte) (w : CmdWord) (result : Byte) : Bool :=
  accOf (step ((instanceAt acc false).present w)) == some result &&
    accOf (step ((instanceAt acc true).present w)) == some result

/-! ## Well-formedness: what is refused, and that no command is -/

theorem test_word_number_1024_is_ill_formed : isWordNumber 1024 = false ∧ isWordNumber 1023 = true := by decide

theorem test_byte_number_256_is_ill_formed : isByteNumber 256 = false ∧ isByteNumber 255 = true := by decide

theorem test_wide_number_is_rejected_by_name :
    decodeNumber 1024 = .error (.widerThanTheCommandPort 1024) ∧ decodeTableWord 16 1024 = none := by decide

theorem test_line_with_256_is_refused :
    (AsmLine.update 256).wellFormed = false ∧ AsmLine.assemble (.pec [0xB4, 256]) = none := by decide

theorem test_every_command_is_well_formed :
    ∀ d : Byte, (Instr.update d).wellFormed = true ∧ (Instr.start d).wellFormed = true ∧
      Instr.hold.wellFormed = true ∧ Instr.clear.wellFormed = true := by decide

/-! ## Decoding, words written out from 30_encoding.md R30 -/

theorem test_decode_hold : decode 0b0000000000#10 = .hold ∧ decode 0b0011111111#10 = .hold := by decide

theorem test_decode_update : decode 0b0110110100#10 = .update 0xB4#8 ∧ decode 0b0100000110#10 = .update 0x06#8 := by decide

theorem test_decode_clear : decode 0b1000000000#10 = .clear ∧ decode 0b1010100101#10 = .clear := by decide

theorem test_decode_start : decode 0b1110110100#10 = .start 0xB4#8 ∧ decode 0b1111111111#10 = .start 0xFF#8 := by decide

theorem test_decode_of_each_table_row :
    decodeTableWord 16 0x000 = some .hold ∧ decodeTableWord 16 0x1B4 = some (.update 0xB4#8) ∧
      decodeTableWord 16 0x200 = some .clear ∧ decodeTableWord 16 0x3B4 = some (.start 0xB4#8) := by decide

/-! ## One step (95_test_vectors.md section 2.4; ACC = 5A) -/

theorem test_hold_ignores_din : wordGives 0x5A#8 0x000#10 0x5A#8 ∧ wordGives 0x5A#8 0x0FF#10 0x5A#8 := by decide

theorem test_update_folds_into_acc : wordGives 0x5A#8 0x1FF#10 0x72#8 ∧ wordGives 0x5A#8 0x166#10 0xB4#8 := by decide

theorem test_update_with_acc_gives_zero : wordGives 0x5A#8 0x15A#10 0x00#8 ∧ wordGives 0x5A#8 0x100#10 0x81#8 := by decide

theorem test_clear_ignores_din_and_acc : wordGives 0x5A#8 0x200#10 0x00#8 ∧ wordGives 0x5A#8 0x2A5#10 0x00#8 := by decide

theorem test_start_ignores_acc : wordGives 0x5A#8 0x3FF#10 0xF3#8 ∧ wordGives 0x00#8 0x3FF#10 0xF3#8 := by decide

theorem test_reset_beats_update :
    accOf (step { instanceAt 0x5A#8 true with pending := [{ rst := true, cmd := 0x1FF#10 }] }) = some 0x00#8 := by decide

theorem test_fetch_word_runs_first :
    accOf (step (State.reset.withFetchWord 16 0x3B4)) = some 0x05#8 ∧
      accOf (step (State.reset.withFetchWord 16 0x1CD)) = some 0x6D#8 := by decide

/-! ## Functions (95_test_vectors.md sections 2.1, 2.2, 2.3, 2.5) -/

theorem test_bit_step : lfsrShift 0xC0#8 = 0x87#8 ∧ lfsrShift 0x40#8 = 0x80#8 := by decide

theorem test_fold_both_variants : foldBitwise 0x12#8 0x34#8 = 0xF2#8 ∧ foldTable 0x12#8 0x34#8 = 0xF2#8 := by decide

theorem test_rom_entries : romRead 0x7F#8 = 0x7A#8 ∧ romRead 0xFD#8 = 0xFD#8 := by decide

theorem test_first_vector_byte_by_byte :
    wordGives 0x00#8 0x1B4#10 0x05#8 ∧ wordGives 0x05#8 0x106#10 0x09#8 ∧ wordGives 0x09#8 0x1AB#10 0x67#8 ∧
      wordGives 0x67#8 0x1CD#10 0x5F#8 := by decide

/-! ## Assembly (30_encoding.md R35, R36; programs P1 and P2 of 95_test_vectors.md) -/

theorem test_assemble_pecc :
    AsmLine.assemble (.pecc [0xB4, 0x06, 0xAB, 0xCD]) = some [0x200#10, 0x1B4#10, 0x106#10, 0x1AB#10, 0x1CD#10] := by decide

theorem test_read_lines :
    parseLine "UPDATE 38 ; decimal".toList = .ok (.update 0x26) ∧ parseLine "PEC 0xB4, 0x06".toList = .ok (.pec [0xB4, 6]) := by
  decide

theorem test_bad_lines_are_rejected_by_name :
    parseLine "UPDATE 256".toList = .error (.notAByte 256) ∧ parseLine "HOLD 1".toList = .error (.operandCount 1) ∧
      parseLine "update 1".toList = .error (.unknownMnemonic "update".toList) := by decide

/-! ## Witnesses: each statement's hypotheses are met together -/

/-- A state with an input waiting: `rst` and the word of one step, and another behind it. -/
def waiting (rst : Bool) (w : CmdWord) : State :=
  { instanceAt 0x5A#8 true with pending := [{ rst := rst, cmd := w }, idleInput] }

theorem witness_ResetBeatsTheCommandOfItsStep :
    (waiting true 0x1FF#10).pending = { rst := true, cmd := 0x1FF#10 } :: [idleInput] := rfl

theorem witness_StepRunsTheDecodedCommand :
    (waiting false 0x1FF#10).pending = { rst := false, cmd := 0x1FF#10 } :: [idleInput] ∧
      (Instr.update 0xFF#8).wellFormed = true := ⟨rfl, rfl⟩

theorem witness_StepComputesExecOfTheWord :
    (waiting false 0x3FF#10).pending = { rst := false, cmd := 0x3FF#10 } :: [idleInput] := rfl

theorem witness_OnlyResetClearUpdateStartWriteTheAccumulator :
    ∃ s t : State, step s = .next t ∧ t.acc ≠ s.acc :=
  ⟨waiting false 0x200#10, _, step_eq _, by decide⟩

theorem witness_HoldKeepsTheState : State.reset.pending = [] ∧ (instanceAt 0x5F#8 false).acc = 0x5F#8 := ⟨rfl, rfl⟩

theorem witness_UpdateFoldsTheByte :
    (0xFD#8 : Byte) ≠ 0x00#8 ∧ (0x01#8 : Byte) ≠ 0x00#8 ∧ (instanceAt 0x05#8 true).acc = 0x05#8 := by decide

theorem witness_BuildParameterNeverChanges :
    ∃ s t : State, step s = .next t ∧ Host.Core.run core 0 s = .next s ∧ s.build = { lookupTable := true } :=
  ⟨waiting false 0x1FF#10, _, step_eq _, rfl, rfl⟩

theorem witness_VariantIsNeverObservable :
    ∃ s s' : State, s.acc = s'.acc ∧ s.pending = s'.pending ∧ s.build ≠ s'.build :=
  ⟨instanceAt 0x5A#8 false, instanceAt 0x5A#8 true, rfl, rfl, by decide⟩

theorem witness_DecodeAndEncodeAgree : (Instr.start 0xFF#8).wellFormed = true ∧ Instr.hold.wellFormed = true := by decide

theorem witness_ParallelFormEqualsTheFold :
    (0xB4#8 : Byte) = 0x00#8 ^^^ 0xB4#8 ∧ (0x05#8 : Byte) = foldBitwise 0x00#8 0xB4#8 := by decide

theorem witness_FoldAndPecAreLinear : ([0x01#8, 0x00#8] : List Byte).length = ([0x00#8, 0x01#8] : List Byte).length := rfl

theorem witness_RunAppliesTheWordsInOrder :
    ∃ t, Host.Core.run core ([] : List CmdWord).length (presents State.reset []) = .next t := ⟨_, rfl⟩

theorem witness_InsertedHoldsChangeNothing : ∀ h ∈ [(0x000#10 : CmdWord), 0x0FF#10], decode h = .hold := by decide

/-- The words of program P2 up to its PEC, HOLD commands among them (95_test_vectors.md). -/
def messageWords : List CmdWord := [0x3B4#10, 0x106#10, 0x000#10, 0x1B5#10, 0x0FF#10, 0x126#10, 0x13A#10]

theorem witness_FramedMessageYieldsItsPec :
    framed (messageWords.map decode) = true ∧
      messageBytes (messageWords.map decode) = [0xB4#8, 0x06#8, 0xB5#8, 0x26#8, 0x3A#8] ∧
      framed ([0x200#10].map decode) = true := by decide

theorem witness_EveryStepKeepsAccThePecSinceInitialisation :
    AccIsPecOf [asInput 0x3B4#10] { instanceAt 0x05#8 true with pending := [asInput 0x106#10] } ∧
      AccIsPecOf [] State.reset ∧ State.reset.pending = [] := by
  unfold AccIsPecOf
  decide

theorem witness_OneChangedByteChangesThePec :
    ∃ (s t : List Byte) (k : Nat), s.length = t.length ∧ s[k]? ≠ t[k]? ∧ ∀ j, j ≠ k → s[j]? = t[j]? := by
  refine ⟨[0xB4#8], [0xB5#8], 0, rfl, by decide, ?_⟩
  intro j hj
  cases j with
  | zero => exact absurd rfl hj
  | succ j => rfl

theorem witness_OneChangedByteChangesThePec_first_and_last_bit : 0 < 8 ∧ 7 < 8 := by decide

theorem witness_FramedMessageForgetsThePast :
    opensMessage (decode 0x2FF#10) = true ∧ opensMessage (decode 0x300#10) = true := by decide

theorem witness_AssemblyLinesGiveTheirWords : 255 < 256 := by decide

end Sys2Proof.Tests
end

/-! PROOF. The build parameter: what a run computes, which build it ran in, and that no result depends on that (00_scope.md
R5, R6). -/

namespace Sys2Proof.Machine

/-! ## What a run of the machine computes -/

/-- Where a step answers a next state, a run goes on from there, in any machine. -/
theorem run_succ_of_step {M : Host.Core} {s s' : M.State} (k : Nat) (h : M.step s = .next s') :
    M.run (k + 1) s = M.run k s' := by
  simp only [Host.Core.run, h]

/-- A block to which the host presents nothing stays as it is (43_commands.md R62). -/
theorem core_run_idle (k : Nat) (s : State) (h : s.pending = []) : Host.Core.run core k s = .next s := by
  induction k with
  | zero => rfl
  | succ k ih => exact (run_succ_of_step (M := core) k (step_idle s h)).trans ih

/-- Everything `k` steps can do, from any state: they complete, the accumulator takes what the first `k` inputs give it (all of
them, where fewer are left), these are gone from the host's list, and nothing else changes. -/
theorem core_run_eq (k : Nat) (s : State) :
    Host.Core.run core k s = .next
      { acc := runInputs s.build s.acc (s.pending.take k), pending := s.pending.drop k, build := s.build } := by
  induction k generalizing s with
  | zero => rfl
  | succ k ih =>
    obtain ⟨acc, pending, build⟩ := s
    cases pending with
    | nil => exact core_run_idle (k + 1) _ rfl
    | cons p rest => exact (run_succ_of_step (M := core) k (step_eq _)).trans (ih _)

/-! ## No result depends on the build -/

/-- A command leaves the same accumulator in every build: the two folds agree (42_table_engine.md R58). -/
theorem accAfter_build_irrelevant (c c' : Config) (acc : Byte) (i : Instr) : accAfter c acc i = accAfter c' acc i := by
  cases i with
  | hold => rfl
  | update din => simp only [accAfter, fold_eq]
  | clear => rfl
  | start din => simp only [accAfter, fold_eq]

/-- So does one step, whatever stands on the ports. -/
theorem execInput_build_irrelevant (c c' : Config) (acc : Byte) (p : PortInput) :
    execInput c acc p = execInput c' acc p := by
  simp only [execInput, execWord_eq, accAfter_build_irrelevant c c']

/-- So does a run over any port inputs, resets among them. -/
theorem runInputs_build_irrelevant (c c' : Config) (acc : Byte) (ps : List PortInput) :
    runInputs c acc ps = runInputs c' acc ps := by
  induction ps generalizing acc with
  | nil => rfl
  | cons p rest ih => rw [runInputs, runInputs, execInput_build_irrelevant c c', ih]

/-- Settles O13: a run shows `runInputs` of the inputs it takes, and that is the same in every build. -/
theorem variantIsNeverObservable : Obligations.VariantIsNeverObservable := by
  unfold Obligations.VariantIsNeverObservable
  intro k s s' hacc hpending
  refine ⟨_, _, core_run_eq k s, core_run_eq k s', ?_, ?_⟩
  · calc runInputs s.build s.acc (s.pending.take k)
        = runInputs s'.build s.acc (s.pending.take k) := runInputs_build_irrelevant ..
      _ = runInputs s'.build s'.acc (s'.pending.take k) := by rw [hacc, hpending]
  · exact congrArg (List.drop k) hpending

/-! ## The build never changes -/

/-- The bitwise build folds with the bitwise engine (00_scope.md R5). -/
theorem fold_of_bitwise_build (a b : Byte) : fold { lookupTable := false } a b = foldBitwise a b := rfl

/-- The table-driven build folds with the table-driven engine (00_scope.md R5). -/
theorem fold_of_table_build (a b : Byte) : fold { lookupTable := true } a b = foldTable a b := rfl

/-- A step keeps the build. -/
theorem step_build {s t : State} (h : step s = .next t) : t.build = s.build := by
  rw [step_eq] at h
  cases h
  rfl

/-- A run of any number of steps keeps the build. -/
theorem core_run_build {k : Nat} {s t : State} (h : Host.Core.run core k s = .next t) : t.build = s.build := by
  rw [core_run_eq] at h
  cases h
  rfl

/-- Settles O12: the default and the choice of the engine are the definitions'; a step and a run keep the build, since their
closed forms do. -/
theorem buildParameterNeverChanges : Obligations.BuildParameterNeverChanges := by
  unfold Obligations.BuildParameterNeverChanges
  exact ⟨rfl, fun a b => ⟨fold_of_bitwise_build a b, fold_of_table_build a b⟩,
    fun _ _ => step_build, fun _ _ _ => core_run_build⟩

end Sys2Proof.Machine

/-! PROOF. Reset: what it leaves in the accumulator and on the result port, and that CLEAR leaves the same state (10_state.md
R10, R16). -/

namespace Sys2Proof.Machine

/-- The result port shows the accumulator (10_state.md R10). -/
@[simp] theorem State.crc_eq_acc (s : State) : s.crc = s.acc := rfl

/-- The reset value of the accumulator (10_state.md R16). -/
@[simp] theorem State.reset_acc : State.reset.acc = 0x00#8 := rfl

/-- CLEAR from any state answers the state that the reset event leaves there: both write `INIT` to the accumulator and nothing
else (43_commands.md R63, 70_reset_and_hazards.md R84). -/
theorem exec_clear_eq_applyReset (s : State) : exec .clear s = .next s.applyReset := exec_eq .clear s

/-- Settles O1: reset puts 0x00 in the accumulator, `crc` shows the accumulator, and CLEAR writes what the reset event writes. -/
theorem afterResetAccumulatorIsZero : Obligations.AfterResetAccumulatorIsZero := by
  unfold Obligations.AfterResetAccumulatorIsZero
  refine ⟨State.reset_acc, ?reset_crc, fun s => ⟨s.applyReset_acc, ?event_crc, exec_clear_eq_applyReset s⟩⟩
  case reset_crc => rw [State.crc_eq_acc, State.reset_acc]
  case event_crc => rw [State.crc_eq_acc, State.applyReset_acc]

end Sys2Proof.Machine

/-! PROOF. The encoding (30_encoding.md R29 to R33): a word is its three fields, `din` does not select the command, and the
command's row of the opcode map is the one of its two strobes. -/

namespace Sys2Proof

/-! ## A word is its fields -/

/-- The number of a word, `cmd = clr·512 + en·256 + din` (30_encoding.md R29). -/
theorem CmdWord.toNat_ofFields (clr en : Bool) (din : Byte) :
    (CmdWord.ofFields clr en din).toNat = clr.toNat * 512 + en.toNat * 256 + din.toNat := by
  have hdin : din.toNat < 2 ^ 8 := din.isLt
  rw [CmdWord.ofFields, BitVec.toNat_append, ← Nat.shiftLeft_add_eq_or_of_lt hdin]
  cases clr <;> cases en <;> simp [Nat.shiftLeft_eq]

/-- Every word is the word with its own fields. -/
theorem CmdWord.ofFields_fields (w : CmdWord) :
    CmdWord.ofFields (CmdWord.clr w) (CmdWord.en w) (CmdWord.din w) = w := by
  apply BitVec.eq_of_toNat_eq
  rw [CmdWord.toNat_ofFields]
  have hw := w.isLt
  simp only [CmdWord.clr, CmdWord.en, CmdWord.din, BitVec.getLsbD, Nat.toNat_testBit, BitVec.extractLsb'_toNat,
    Nat.shiftRight_zero]
  omega

/-- What holds of the word with any fields holds of every word. -/
theorem CmdWord.forall_of_fields {P : CmdWord → Prop} (h : ∀ clr en din, P (CmdWord.ofFields clr en din)) (w : CmdWord) :
    P w :=
  w.ofFields_fields ▸ h w.clr w.en w.din

/-- The input byte is added to the word of the strobes. -/
theorem CmdWord.ofFields_eq_add (clr en : Bool) (din : Byte) :
    CmdWord.ofFields clr en din = CmdWord.ofFields clr en 0x00#8 + din.setWidth 10 := by
  apply BitVec.eq_of_toNat_eq
  have hlt := (CmdWord.ofFields clr en din).isLt
  have hdin := din.isLt
  rw [CmdWord.toNat_ofFields] at hlt
  rw [BitVec.toNat_add, CmdWord.toNat_ofFields, CmdWord.toNat_ofFields, BitVec.toNat_setWidth, BitVec.toNat_ofNat]
  omega

/-- The canonical word of UPDATE (30_encoding.md R30). -/
theorem encode_update (d : Byte) : encode (.update d) = 0x100#10 + d.setWidth 10 :=
  CmdWord.ofFields_eq_add false true d

/-- The canonical word of START (30_encoding.md R30). -/
theorem encode_start (d : Byte) : encode (.start d) = 0x300#10 + d.setWidth 10 :=
  CmdWord.ofFields_eq_add true true d

/-! ## The command of given fields -/

@[simp] theorem decode_ofFields_hold (d : Byte) : decode (CmdWord.ofFields false false d) = .hold := by
  simp [decode, CmdWord.fields_ofFields]

@[simp] theorem decode_ofFields_update (d : Byte) : decode (CmdWord.ofFields false true d) = .update d := by
  simp [decode, CmdWord.fields_ofFields]

@[simp] theorem decode_ofFields_clear (d : Byte) : decode (CmdWord.ofFields true false d) = .clear := by
  simp [decode, CmdWord.fields_ofFields]

@[simp] theorem decode_ofFields_start (d : Byte) : decode (CmdWord.ofFields true true d) = .start d := by
  simp [decode, CmdWord.fields_ofFields]

/-- A command decodes from its canonical word. -/
@[simp] theorem decode_encode (i : Instr) : decode (encode i) = i := by
  cases i <;> simp [encode]

/-- `din` is ignored in the selection of the command: the mnemonic is that of the two strobes (30_encoding.md R30). -/
theorem mnemonic_decode_ofFields (clr en : Bool) (d : Byte) :
    (decode (CmdWord.ofFields clr en d)).mnemonic = (decode (CmdWord.ofFields clr en 0x00#8)).mnemonic := by
  cases clr <;> cases en <;> simp [Instr.mnemonic]

/-! ## The opcode map -/

/-- The mask of the opcode map keeps the strobes of a word and clears `din`. -/
theorem ofFields_and_mask (clr en : Bool) (d : Byte) :
    CmdWord.ofFields clr en d &&& 0x300#10 = CmdWord.ofFields clr en 0x00#8 := by
  have hmask : (0x300#10 : CmdWord) = 0b11#2 ++ 0x00#8 := by decide
  have hstrobes : (BitVec.ofBool clr ++ BitVec.ofBool en) &&& 0b11#2 = BitVec.ofBool clr ++ BitVec.ofBool en :=
    BitVec.and_allOnes
  rw [hmask, CmdWord.ofFields, CmdWord.ofFields, BitVec.and_append, hstrobes, BitVec.and_zero]

/-- Whether a word spells a row's command does not depend on its `din`. -/
theorem spells_ofFields (clr en : Bool) (d : Byte) {r : OpcodeRow} (hr : r ∈ opcodeMap) :
    r.spells (CmdWord.ofFields clr en d) = r.spells (CmdWord.ofFields clr en 0x00#8) := by
  have hmask : r.mask = 0x300#10 := by
    revert r
    decide
  simp only [OpcodeRow.spells, hmask, ofFields_and_mask]

/-- Each of the four pairs of strobes stands in exactly one row, that of its command. -/
theorem opcodeMap_row_of_strobes : ∀ clr en : Bool,
    (opcodeMap.filter (OpcodeRow.spells · (CmdWord.ofFields clr en 0x00#8))).map OpcodeRow.mnemonic =
      [(decode (CmdWord.ofFields clr en 0x00#8)).mnemonic] := by
  decide

/-- Exactly one row of the opcode map fits a word, and it bears the mnemonic of the word's command (30_encoding.md R30). -/
theorem opcodeMap_row_of_word (w : CmdWord) :
    (opcodeMap.filter (OpcodeRow.spells · w)).map OpcodeRow.mnemonic = [(decode w).mnemonic] := by
  induction w using CmdWord.forall_of_fields with
  | h clr en d =>
    rw [List.filter_congr fun r hr => spells_ofFields clr en d hr, opcodeMap_row_of_strobes,
      mnemonic_decode_ofFields clr en d]

/-- A word without `din` tells its two strobes. -/
theorem strobes_word_eq_iff : ∀ clr en clr' en' : Bool,
    CmdWord.ofFields clr en 0x00#8 = CmdWord.ofFields clr' en' 0x00#8 ↔ clr = clr' ∧ en = en' := by
  decide

/-- The words of HOLD are those with `clr` = 0 and `en` = 0. -/
theorem decode_eq_hold_iff (w : CmdWord) : decode w = .hold ↔ w &&& 0x300#10 = 0x000#10 := by
  induction w using CmdWord.forall_of_fields with
  | h clr en d =>
    have hcommand : decode (CmdWord.ofFields clr en d) = .hold ↔ clr = false ∧ en = false := by
      cases clr <;> cases en <;> simp
    rw [hcommand, ofFields_and_mask]
    exact (strobes_word_eq_iff clr en false false).symm

/-- The words of CLEAR are those with `clr` = 1 and `en` = 0. -/
theorem decode_eq_clear_iff (w : CmdWord) : decode w = .clear ↔ w &&& 0x300#10 = 0x200#10 := by
  induction w using CmdWord.forall_of_fields with
  | h clr en d =>
    have hcommand : decode (CmdWord.ofFields clr en d) = .clear ↔ clr = true ∧ en = false := by
      cases clr <;> cases en <;> simp
    rw [hcommand, ofFields_and_mask]
    exact (strobes_word_eq_iff clr en true false).symm

/-- UPDATE `d` has one word, the canonical one. -/
theorem decode_eq_update_iff (w : CmdWord) (d : Byte) : decode w = .update d ↔ w = encode (.update d) := by
  constructor
  · induction w using CmdWord.forall_of_fields with
    | h clr en din => cases clr <;> cases en <;> simp +contextual [encode]
  · rintro rfl
    exact decode_encode _

/-- START `d` has one word, the canonical one. -/
theorem decode_eq_start_iff (w : CmdWord) (d : Byte) : decode w = .start d ↔ w = encode (.start d) := by
  constructor
  · induction w using CmdWord.forall_of_fields with
    | h clr en din => cases clr <;> cases en <;> simp +contextual [encode]
  · rintro rfl
    exact decode_encode _

/-- Settles O14: by the four pairs of strobes, since neither a row of the map nor the choice of the command looks at `din`. -/
theorem decodeFollowsTheOpcodeMap : Obligations.DecodeFollowsTheOpcodeMap := by
  unfold Obligations.DecodeFollowsTheOpcodeMap
  refine ⟨opcodeMap_row_of_word, decode_eq_hold_iff, fun w d => ?update, decode_eq_clear_iff, fun w d => ?start⟩
  case update => rw [decode_eq_update_iff, encode_update]
  case start => rw [decode_eq_start_iff, encode_start]

/-! ## How many words a command has -/

/-- The number `clr·512 + en·256 + n` is the word with these fields (30_encoding.md R29). -/
theorem ofNat_eq_ofFields (clr en : Bool) {n : Nat} (hn : n < 256) :
    BitVec.ofNat 10 (clr.toNat * 512 + en.toNat * 256 + n) = CmdWord.ofFields clr en (BitVec.ofNat 8 n) := by
  apply BitVec.eq_of_toNat_eq
  have hclr := clr.toNat_le
  have hen := en.toNat_le
  rw [CmdWord.toNat_ofFields, BitVec.toNat_ofNat, BitVec.toNat_ofNat]
  omega

/-- The 256 words with given strobes spell the same command: all of them have a mnemonic, or none has. -/
theorem count_words_of_strobes (m : String) (clr en : Bool) :
    ((List.range 256).filter fun n =>
        (decode (BitVec.ofNat 10 (clr.toNat * 512 + en.toNat * 256 + n))).mnemonic == m).length =
      if (decode (CmdWord.ofFields clr en 0x00#8)).mnemonic == m then 256 else 0 := by
  have hblock : ∀ n ∈ List.range 256,
      ((decode (BitVec.ofNat 10 (clr.toNat * 512 + en.toNat * 256 + n))).mnemonic == m) =
        ((decode (CmdWord.ofFields clr en 0x00#8)).mnemonic == m) := by
    intro n hn
    rw [ofNat_eq_ofFields clr en (List.mem_range.mp hn), mnemonic_decode_ofFields]
  rw [List.filter_congr hblock]
  split <;> simp [*]

/-- The numbers of the 1024 words are four blocks of 256, one for each pair of strobes. -/
theorem count_words (p : Nat → Bool) :
    ((List.range 1024).filter p).length =
      ([(false, false), (false, true), (true, false), (true, true)].map fun strobes : Bool × Bool =>
        ((List.range 256).filter fun n => p (strobes.1.toNat * 512 + strobes.2.toNat * 256 + n)).length).sum := by
  have hblocks : List.range 1024 = List.range 256 ++ (List.range 256).map (256 + ·) ++
      (List.range 256).map (512 + ·) ++ (List.range 256).map (768 + ·) := by
    rw [← List.range_add, ← List.range_add, ← List.range_add]
  rw [hblocks]
  simp [List.filter_map, Function.comp_def]

/-- Settles O15: a word's mnemonic is that of its row, and of the four blocks of 256 words exactly one bears the mnemonic of a
given row. -/
theorem eachCommandHas256Words : Obligations.EachCommandHas256Words := by
  unfold Obligations.EachCommandHas256Words
  constructor
  · intro w
    have hrow : (decode w).mnemonic ∈ (opcodeMap.filter (OpcodeRow.spells · w)).map OpcodeRow.mnemonic := by
      rw [opcodeMap_row_of_word]
      exact List.mem_singleton.mpr rfl
    exact List.map_subset _ (List.filter_subset_self opcodeMap) hrow
  · intro r hr
    rw [count_words]
    simp only [count_words_of_strobes]
    revert r
    decide

end Sys2Proof

/-! PROOF. The ignored `din` of HOLD and CLEAR in a step, and the pseudo-instructions (30_encoding.md R31, R36). -/

namespace Sys2Proof.Machine

/-! ## The step on a presented word -/

/-- A step on a word the host presents executes the word's command (43_commands.md R61). -/
theorem step_present (s : State) (w : CmdWord) : step (s.present w) = exec (decode w) s := by
  simp [step]

/-- Two words of the same command have the same step. -/
theorem step_present_congr (s : State) {w v : CmdWord} (h : decode w = decode v) :
    step (s.present w) = step (s.present v) := by
  rw [step_present, step_present, h]

/-- Settles O16: a step depends on the word through its command only, and with `en` = 0 the command does not depend on `din`. -/
theorem unusedDinIsIgnored : Obligations.UnusedDinIsIgnored := by
  unfold Obligations.UnusedDinIsIgnored
  have hhold : decode 0x000#10 = .hold := decode_encode .hold
  have hclear : decode 0x200#10 = .clear := decode_encode .clear
  refine ⟨fun d => ⟨decode_ofFields_hold d, decode_ofFields_clear d⟩, fun d s => ⟨?hold, ?clear⟩, rfl, rfl⟩
  case hold => exact step_present_congr s ((decode_ofFields_hold d).trans hhold.symm)
  case clear => exact step_present_congr s ((decode_ofFields_clear d).trans hclear.symm)

/-! ## The words of the pseudo-instructions -/

/-- The number of a byte is a `<byte>` of the assembly language. -/
theorem all_isByteNumber (bs : List Byte) : (bs.map BitVec.toNat).all isByteNumber = true := by
  simpa [isByteNumber] using fun b _ => b.isLt

/-- The byte of a byte's number is that byte. -/
@[simp] theorem byteOf_toNat (b : Byte) : byteOf b.toNat = b := by
  simp [byteOf]

/-- PEC assembles to the words of the short framing of its operands (30_encoding.md R36). -/
theorem assemble_pec (bs : List Byte) :
    AsmLine.assemble (.pec (bs.map BitVec.toNat)) = some ((frameStart bs).map encode) := by
  rw [AsmLine.assemble, AsmLine.wellFormed, all_isByteNumber, if_pos rfl, AsmLine.expand]
  simp [Function.comp_def]

/-- PECC assembles to the words of the "clear first" framing of its operands (30_encoding.md R36). -/
theorem assemble_pecc (bs : List Byte) :
    AsmLine.assemble (.pecc (bs.map BitVec.toNat)) = some ((frameClear bs).map encode) := by
  rw [AsmLine.assemble, AsmLine.wellFormed, all_isByteNumber, if_pos rfl, AsmLine.expand]
  simp [Function.comp_def]

/-- The words of one UPDATE per byte. -/
theorem map_encode_updates (bs : List Byte) :
    (updates bs).map encode = bs.map fun d => 0x100#10 + d.setWidth 10 := by
  simp [updates, Function.comp_def, encode_update]

/-! ## What framed commands leave in the accumulator -/

/-- The machine given a list of words, from any state, runs them all and is left with nothing presented (43_commands.md R66). -/
theorem core_run_presents (s : State) (ws : List CmdWord) :
    Host.Core.run core ws.length (Safety.presents s ws) = .next { s with acc := run s.build s.acc ws, pending := [] } := by
  rw [core_run_eq]
  simp [Safety.presents, List.take_of_length_le, List.drop_of_length_le, runInputs_asInput]

/-- A run of canonical words does to the accumulator what their commands do, one after the other. -/
theorem run_map_encode (c : Config) (acc : Byte) (is : List Instr) :
    run c acc (is.map encode) = is.foldl (accAfter c) acc := by
  induction is generalizing acc with
  | nil => rfl
  | cons i rest ih => rw [List.map_cons, run, execWord_eq, decode_encode, ih, List.foldl_cons]

/-- One UPDATE per byte folds the bytes into the accumulator in order. -/
theorem foldl_accAfter_updates (c : Config) (acc : Byte) (bs : List Byte) :
    (updates bs).foldl (accAfter c) acc = bs.foldl (fold c) acc :=
  List.foldl_map

/-- The PEC of a message is the fold of its bytes from `INIT`, in either build (43_commands.md R67). -/
theorem pec_eq_foldl (c : Config) (bs : List Byte) : pec c bs = bs.foldl (fold c) Config.init := by
  obtain ⟨lookupTable⟩ := c
  cases lookupTable <;> rfl

/-- The PEC of the empty message is `INIT`. -/
@[simp] theorem pec_nil (c : Config) : pec c [] = 0x00#8 := pec_eq_foldl c []

/-- The "clear first" framing leaves the PEC of its bytes, whatever stood in the accumulator (43_commands.md R67). -/
theorem run_frameClear (c : Config) (acc : Byte) (bs : List Byte) :
    run c acc ((frameClear bs).map encode) = pec c bs := by
  rw [run_map_encode, frameClear, List.foldl_cons, foldl_accAfter_updates, pec_eq_foldl]
  rfl

/-- So does the short framing: START with the first byte is CLEAR and UPDATE in one (43_commands.md R65, R67). -/
theorem run_frameStart (c : Config) (acc : Byte) (bs : List Byte) :
    run c acc ((frameStart bs).map encode) = pec c bs := by
  cases bs with
  | nil => exact run_frameClear c acc []
  | cons b rest =>
    rw [run_map_encode, frameStart, List.foldl_cons, foldl_accAfter_updates, pec_eq_foldl]
    rfl

/-- Settles O44: both forms assemble to the words of a framing of their operands, and either framing leaves the PEC. -/
theorem pseudoInstructionsExpandToFramedMessages : Obligations.PseudoInstructionsExpandToFramedMessages := by
  unfold Obligations.PseudoInstructionsExpandToFramedMessages
  refine ⟨fun b bs => ?pec_words, assemble_pec [], fun bs => ?pecc_words, fun s bs => ?runs, pec_nil⟩
  case pec_words => rw [assemble_pec, frameStart, List.map_cons, encode_start, map_encode_updates]
  case pecc_words =>
    rw [assemble_pecc, frameClear, List.map_cons, map_encode_updates]
    rfl
  case runs =>
    refine ⟨_, _, assemble_pec bs, assemble_pecc bs, ?_, ?_⟩
    · rw [core_run_presents, run_frameStart]
    · rw [core_run_presents, run_frameClear]

end Sys2Proof.Machine

/-! PROOF. The bitwise engine (40_bitwise_engine.md R38 to R40): the bit step by formula and by bits, the fold as an iteration
of it, and the recursion of the whole-message function. -/

namespace Sys2Proof.Machine

/-! ## The bit step -/

/-- The truncated shift is the left shift of a byte: bit 7 is dropped and bit 0 becomes 0 (40_bitwise_engine.md R38). -/
theorem truncByte_shiftLeftOne (a : Byte) : truncByte (shiftLeftOne a) = a <<< 1 := by
  have happend : (a ++ 0#1).toNat = a.toNat * 2 := by
    rw [BitVec.toNat_append]
    simp [Nat.shiftLeft_eq]
  apply BitVec.eq_of_toNat_eq
  simp [truncByte, shiftLeftOne, happend, Nat.shiftLeft_eq]

/-- The bit step as a shift followed by the feedback (40_bitwise_engine.md R38). -/
theorem lfsrShift_eq (a : Byte) : lfsrShift a = if a.getLsbD 7 then (a <<< 1) ^^^ 0x07#8 else a <<< 1 := by
  rw [lfsrShift, truncByte_shiftLeftOne, feedback]

/-- A result bit is the operand bit one place below, XORed with the feedback bit where `POLY` has a 1. -/
theorem getLsbD_lfsrShift (a : Byte) {i : Nat} (hi : i < 8) :
    (lfsrShift a).getLsbD i = ((decide (0 < i) && a.getLsbD (i - 1)) ^^ (a.getLsbD 7 && (0x07#8).getLsbD i)) := by
  have hshift : (a <<< 1).getLsbD i = (decide (0 < i) && a.getLsbD (i - 1)) := by
    rw [BitVec.getLsbD_shiftLeft]
    cases i with
    | zero => simp
    | succ j => simp [hi]
  rw [lfsrShift_eq]
  cases hf : a.getLsbD 7 with
  | false => simp only [hshift, Bool.false_eq_true, if_false, Bool.false_and, Bool.xor_false]
  | true => simp only [hshift, if_true, BitVec.getLsbD_xor, Bool.true_and]

/-- Zero is a fixed point of the bit step: nothing is shifted out, so nothing feeds back. -/
@[simp] theorem lfsrShift_zero : lfsrShift 0x00#8 = 0x00#8 := by decide

/-- Settles O19: the formula is the definition's with the truncated shift read as a left shift, and each line of the bit table
is the general result bit at one position. -/
theorem bitStepShiftsAndFeedsBack : Obligations.BitStepShiftsAndFeedsBack := by
  unfold Obligations.BitStepShiftsAndFeedsBack
  refine ⟨lfsrShift_eq, fun a => ?bits, lfsrShift_zero, ?corner_cases⟩
  case bits =>
    simp only [getLsbD_lfsrShift, Nat.reduceLT]
    simp
  case corner_cases => decide

/-! ## The byte step -/

/-- `n` bit steps in succession are the `n`-th iterate of the bit step. -/
theorem lfsrShifts_eq_iterate (n : Nat) (t : Byte) : lfsrShifts n t = lfsrShift^[n] t := by
  induction n generalizing t with
  | zero => rfl
  | succ n ih => rw [lfsrShifts, ih, Function.iterate_succ_apply]

/-- The fold is the bit step iterated eight times on the XOR of its operands (40_bitwise_engine.md R39). -/
theorem foldBitwise_eq_iterate (a b : Byte) : foldBitwise a b = lfsrShift^[8] (a ^^^ b) :=
  lfsrShifts_eq_iterate 8 (a ^^^ b)

/-- Equal operands fold to zero: their XOR is the fixed point of the bit step (40_bitwise_engine.md R39). -/
@[simp] theorem foldBitwise_self (a : Byte) : foldBitwise a a = 0x00#8 := by
  rw [foldBitwise_eq_iterate, BitVec.xor_self]
  exact Function.iterate_fixed lfsrShift_zero 8

/-- Settles O20: the eight bit steps of the definition are an iterate, and zero, the XOR of equal operands, is its fixed
point. -/
theorem byteFoldIsXorThenEightBitSteps : Obligations.ByteFoldIsXorThenEightBitSteps := by
  unfold Obligations.ByteFoldIsXorThenEightBitSteps
  refine ⟨foldBitwise_eq_iterate, foldBitwise_self, ?corner_cases⟩
  case corner_cases => decide

/-! ## The whole message -/

/-- The PEC of the empty message is `INIT` (40_bitwise_engine.md R40). -/
@[simp] theorem pecBitwise_nil : pecBitwise [] = 0x00#8 := rfl

/-- The PEC of a message in two parts folds the second part in, from the PEC of the first. -/
theorem pecBitwise_append (s t : List Byte) : pecBitwise (s ++ t) = t.foldl foldBitwise (pecBitwise s) :=
  List.foldl_append

/-- The accumulator along the document's two vectors: 0x05, 0x09, 0x67, 0x5F and 0x05, 0x09, 0x3D, 0x41, 0x66
(40_bitwise_engine.md R40). -/
theorem foldBitwise_along_vectors :
    foldBitwise 0x00#8 0xB4#8 = 0x05#8 ∧ foldBitwise 0x05#8 0x06#8 = 0x09#8 ∧
    (foldBitwise 0x09#8 0xAB#8 = 0x67#8 ∧ foldBitwise 0x67#8 0xCD#8 = 0x5F#8) ∧
    (foldBitwise 0x09#8 0xB5#8 = 0x3D#8 ∧ foldBitwise 0x3D#8 0x26#8 = 0x41#8 ∧ foldBitwise 0x41#8 0x3A#8 = 0x66#8) := by
  decide

/-- Settles O24: a last byte is a second part of length one, the PEC of [0x00] is the fold of equal operands, and the
vectors follow their accumulator byte by byte. -/
theorem pecBitwiseFoldsInInputOrder : Obligations.PecBitwiseFoldsInInputOrder := by
  unfold Obligations.PecBitwiseFoldsInInputOrder
  refine ⟨pecBitwise_nil, fun s b => pecBitwise_append s [b], foldBitwise_self 0x00#8,
    ?first_vector, ?second_vector⟩
  case first_vector => simp only [pecBitwise, List.foldl_cons, List.foldl_nil, foldBitwise_along_vectors]
  case second_vector => simp only [pecBitwise, List.foldl_cons, List.foldl_nil, foldBitwise_along_vectors]

end Sys2Proof.Machine

/-! PROOF. The generator of the table (41_table_rom.md R48): what a read of the generated table returns. -/

namespace Sys2Proof.Machine

/-- A read of the generated table is the value the generator filled in at that index. -/
theorem tableRead_buildTable (i : Byte) : tableRead buildTable i = pecBitwise [i] :=
  Vector.getElem_ofFn i.isLt

/-- The PEC of a one-byte message is one fold from `INIT` (40_bitwise_engine.md R40). -/
theorem pecBitwise_singleton (b : Byte) : pecBitwise [b] = foldBitwise 0x00#8 b := rfl

/-- An entry of the generated table is one fold of its index from zero (41_table_rom.md R48). -/
theorem tableRead_buildTable_eq_fold (i : Byte) : tableRead buildTable i = foldBitwise 0x00#8 i :=
  (tableRead_buildTable i).trans (pecBitwise_singleton i)

/-- Settles O26: a read returns what the generator filled in, and the four named entries are folds from zero, the first of
them of equal operands. -/
theorem generatorFillsEntriesWithPecOfOneByte : Obligations.GeneratorFillsEntriesWithPecOfOneByte := by
  unfold Obligations.GeneratorFillsEntriesWithPecOfOneByte
  refine ⟨fun i => ⟨tableRead_buildTable i, tableRead_buildTable_eq_fold i⟩, ?named_entries⟩
  case named_entries =>
    simp only [tableRead_buildTable_eq_fold]
    exact ⟨foldBitwise_self 0x00#8, by decide, by decide, foldBitwise_along_vectors.1⟩

end Sys2Proof.Machine

/-! PROOF. The table-driven engine (42_table_engine.md R54, R55, R58): a fold is one entry of the ROM, a message is one entry
per byte, and both agree with the bitwise engine. -/

namespace Sys2Proof.Machine

/-! ## The byte step -/

/-- The read of a table is the entry of its list at that index; every index names an entry (20_memory.md R23). -/
theorem getElem?_toList_eq_tableRead (t : Table) (i : Byte) : t.toList[i.toNat]? = some (tableRead t i) := by
  rw [Vector.getElem?_toList]
  exact Vector.getElem?_eq_getElem i.isLt

/-- The table-driven byte step is the bitwise one (42_table_engine.md R58). -/
theorem foldTable_eq (a b : Byte) : foldTable a b = foldBitwise a b :=
  (romRead_eq (a ^^^ b)).trans (foldBitwise_zero_xor a b)

/-- From a zero accumulator the index is the input byte itself. -/
@[simp] theorem foldTable_zero_left (b : Byte) : foldTable 0x00#8 b = romRead b :=
  congrArg romRead BitVec.zero_xor

/-- With a zero input byte the index is the accumulator itself. -/
@[simp] theorem foldTable_zero_right (a : Byte) : foldTable a 0x00#8 = romRead a :=
  congrArg romRead BitVec.xor_zero

/-- Entry 0 is the fold of zero with itself (41_table_rom.md R51). -/
@[simp] theorem romRead_zero : romRead 0x00#8 = 0x00#8 :=
  (romRead_eq 0x00#8).trans (foldBitwise_self 0x00#8)

/-- Equal operands index entry 0, which holds zero. -/
@[simp] theorem foldTable_self (a : Byte) : foldTable a a = 0x00#8 :=
  (congrArg romRead BitVec.xor_self).trans romRead_zero

/-- Settles O29: the entry is the read of the ROM at the XOR, which is zero for equal operands and the other operand where one
is zero; the example reads entry 0x05 XOR 0x06 = 0x03. -/
theorem tableFoldReadsTheEntryAtTheXor : Obligations.TableFoldReadsTheEntryAtTheXor := by
  unfold Obligations.TableFoldReadsTheEntryAtTheXor
  have hexample : foldTable 0x05#8 0x06#8 = 0x09#8 := by decide
  exact ⟨fun a b => getElem?_toList_eq_tableRead rom (a ^^^ b), fun a => ⟨foldTable_self a, romRead_zero⟩,
    foldTable_zero_left, foldTable_zero_right, hexample, hexample⟩

/-! ## The whole message -/

/-- No byte, no lookup: the result is `INIT`, whatever the table (42_table_engine.md R55). -/
@[simp] theorem pecTable_nil (t : Table) : pecTable [] t = 0x00#8 := rfl

/-- One more byte is one more read, at its XOR with the accumulator so far (42_table_engine.md R55). -/
theorem pecTable_snoc (t : Table) (s : List Byte) (b : Byte) :
    pecTable (s ++ [b]) t = tableRead t (pecTable s t ^^^ b) :=
  List.foldl_concat _ _ b s

/-- With the ROM for its table the message is folded by the table-driven byte step. -/
theorem pecTable_rom_eq_foldl (s : List Byte) : pecTable s rom = s.foldl foldTable 0x00#8 := rfl

/-- Settles O30: the recursion is the definition's, a one-byte message is one fold from zero, and the example follows the
accumulator along the first vector. -/
theorem pecTableReadsOneEntryPerByte : Obligations.PecTableReadsOneEntryPerByte := by
  unfold Obligations.PecTableReadsOneEntryPerByte
  refine ⟨pecTable_nil, pecTable_snoc, foldTable_zero_left, ?byte_by_byte⟩
  case byte_by_byte =>
    simp only [pecTable_rom_eq_foldl, List.foldl_cons, List.foldl_nil, foldTable_eq, foldBitwise_along_vectors, and_self]

/-! ## Equivalence with the bitwise engine -/

/-- The generated table holds, at the XOR of two bytes, their bitwise fold (42_table_engine.md R58). -/
theorem tableRead_buildTable_xor (a b : Byte) : tableRead buildTable (a ^^^ b) = foldBitwise a b :=
  (tableRead_buildTable_eq_fold (a ^^^ b)).trans (foldBitwise_zero_xor a b)

/-- Over the generated table the two engines agree on every message: they start equal, and each byte is an equal step. -/
theorem pecTable_buildTable (s : List Byte) : pecTable s buildTable = pecBitwise s := by
  induction s using List.reverseRecOn with
  | nil => rw [pecTable_nil, pecBitwise_nil]
  | append_singleton s b ih =>
    calc pecTable (s ++ [b]) buildTable
        = tableRead buildTable (pecTable s buildTable ^^^ b) := pecTable_snoc buildTable s b
      _ = foldBitwise (pecTable s buildTable) b := tableRead_buildTable_xor _ b
      _ = foldBitwise (pecBitwise s) b := by rw [ih]
      _ = pecBitwise (s ++ [b]) := (pecBitwise_append s [b]).symm

/-- Settles O31: message by message through the generated table, and byte by byte through the ROM. -/
theorem bothEnginesAgreeOnEveryMessage : Obligations.BothEnginesAgreeOnEveryMessage := by
  unfold Obligations.BothEnginesAgreeOnEveryMessage
  exact ⟨fun s => (pecTable_buildTable s).symm, fun a b => ⟨romRead_eq (a ^^^ b), foldTable_eq a b⟩⟩

end Sys2Proof.Machine

/-! PROOF. The commands (43_commands.md R61 to R65): what a word computes by its fields, the fold as a permutation in each
operand, and the whole effect of each command with its words. -/

namespace Sys2Proof

/-! ## The words of a command -/

/-- `din` as the eight low bits of the word (30_encoding.md R29). -/
theorem CmdWord.din_eq_setWidth (w : CmdWord) : CmdWord.din w = w.setWidth 8 :=
  (BitVec.setWidth_eq_extractLsb' (by decide)).symm

/-- The input byte can be ORed onto the word of the strobes, since it meets no bit of theirs. -/
theorem CmdWord.ofFields_zero_or (clr en : Bool) (din : Byte) :
    CmdWord.ofFields clr en 0x00#8 ||| din.setWidth 10 = CmdWord.ofFields clr en din := by
  have hdin : din.setWidth 10 = 0b00#2 ++ din := BitVec.setWidth_eq_append (by decide)
  rw [hdin, CmdWord.ofFields, CmdWord.ofFields, BitVec.or_append, BitVec.or_zero, BitVec.zero_or]

/-- Every value of `din` spells HOLD (43_commands.md R62). -/
theorem decode_hold_or (d : Byte) : decode (0x000#10 ||| d.setWidth 10) = .hold :=
  (congrArg decode (CmdWord.ofFields_zero_or false false d)).trans (decode_ofFields_hold d)

/-- Every value of `din` spells CLEAR (43_commands.md R63). -/
theorem decode_clear_or (d : Byte) : decode (0x200#10 ||| d.setWidth 10) = .clear :=
  (congrArg decode (CmdWord.ofFields_zero_or true false d)).trans (decode_ofFields_clear d)

/-- The one word of UPDATE `d` decodes to it (43_commands.md R64). -/
theorem decode_update_add (d : Byte) : decode (0x100#10 + d.setWidth 10) = .update d :=
  (decode_eq_update_iff _ d).mpr (encode_update d).symm

/-- The one word of START `d` decodes to it (43_commands.md R65). -/
theorem decode_start_add (d : Byte) : decode (0x300#10 + d.setWidth 10) = .start d :=
  (decode_eq_start_iff _ d).mpr (encode_start d).symm

end Sys2Proof

namespace Sys2Proof.Machine

/-! ## A step on a word -/

/-- The function of 43_commands.md R61 over the numbered bits of the word. -/
theorem execWord_eq_bits (c : Config) (acc : Byte) (w : CmdWord) :
    execWord c acc w = if w.getLsbD 8 then fold c (if w.getLsbD 9 then 0x00#8 else acc) (w.setWidth 8)
      else if w.getLsbD 9 then 0x00#8 else acc := by
  rw [← CmdWord.din_eq_setWidth]
  rfl

/-- A step on a waiting word computes `execWord` of it, takes it from the host's list, and changes nothing else
(43_commands.md R61). -/
theorem step_of_pending (s : State) {w : CmdWord} {rest : List PortInput} (h : s.pending = asInput w :: rest) :
    step s = .next { s with acc := execWord s.build s.acc w, pending := rest } := by
  rw [step_eq, (s.presented_cons _ rest h).1, h]
  rfl

/-- Settles O4: the step computes `execWord` of the waiting word, and that is the formula over its bits. -/
theorem stepComputesExecOfTheWord : Obligations.StepComputesExecOfTheWord := by
  unfold Obligations.StepComputesExecOfTheWord
  intro s w rest h
  exact ⟨_, step_of_pending s h, s.crc_eq_acc, State.crc_eq_acc _, rfl, rfl, execWord_eq_bits s.build s.acc w⟩

/-! ## HOLD and CLEAR -/

/-- HOLD answers the same state (43_commands.md R62). -/
theorem exec_hold (s : State) : exec .hold s = .next s := exec_eq .hold s

/-- CLEAR zeroes the accumulator and changes nothing else (43_commands.md R63). -/
theorem exec_clear (s : State) : exec .clear s = .next { s with acc := 0x00#8 } := exec_eq .clear s

/-- A step on any spelling of HOLD answers the state from before the word was presented. -/
theorem step_present_hold (s : State) {w : CmdWord} (h : decode w = .hold) : step (s.present w) = .next s := by
  rw [step_present, h, exec_hold]

/-- Settles O7: HOLD writes back what stands in the accumulator, `din` does not select the command, and a silent host
presents HOLD. -/
theorem holdKeepsTheState : Obligations.HoldKeepsTheState := by
  unfold Obligations.HoldKeepsTheState
  exact ⟨exec_hold, decode_hold_or, rfl, step_idle, fun s hacc =>
    ⟨step_present_hold s (decode_hold_or 0x00#8), step_present_hold s (decode_hold_or 0xFF#8), hacc⟩⟩

/-- Settles O8: the effect does not mention the old accumulator, and CLEAR alone is the "clear first" framing of the empty
message. -/
theorem clearZeroesTheAccumulator : Obligations.ClearZeroesTheAccumulator := by
  unfold Obligations.ClearZeroesTheAccumulator
  refine ⟨exec_clear, fun s => exec_clear _, fun s a => ?independent, decode_clear_or, rfl,
    fun s => ⟨?empty_message, pec_nil s.build⟩⟩
  case independent => rw [exec_clear, exec_clear]
  case empty_message => rw [← run_frameClear s.build s.acc []]; exact core_run_presents s [encode .clear]

/-! ## The fold is a permutation in each operand -/

/-- The bit step and the stated inverse undo each other (40_bitwise_engine.md R47). -/
theorem lfsrUnshift_inverse : ∀ a : Byte, lfsrUnshift (lfsrShift a) = a ∧ lfsrShift (lfsrUnshift a) = a := by
  decide

/-- The bit step is a permutation of the bytes. -/
theorem lfsrShift_bijective : Function.Bijective lfsrShift :=
  Function.bijective_iff_has_inverse.mpr
    ⟨lfsrUnshift, fun a => (lfsrUnshift_inverse a).1, fun a => (lfsrUnshift_inverse a).2⟩

/-- XOR with a fixed byte on the right undoes itself. -/
theorem xor_right_involutive (b : Byte) : Function.Involutive fun a => a ^^^ b := by
  intro a
  change a ^^^ b ^^^ b = a
  rw [BitVec.xor_assoc, BitVec.xor_self, BitVec.xor_zero]

/-- The bitwise fold is a permutation in the accumulator: an XOR, then eight permutations. -/
theorem foldBitwise_bijective_left (b : Byte) : Function.Bijective fun a => foldBitwise a b := by
  simp only [foldBitwise_eq_iterate]
  exact (lfsrShift_bijective.iterate 8).comp (xor_right_involutive b).bijective

/-- The bitwise fold does not tell its operands apart: XOR commutes. -/
theorem foldBitwise_comm (a b : Byte) : foldBitwise a b = foldBitwise b a := by
  rw [foldBitwise_eq_iterate, BitVec.xor_comm, ← foldBitwise_eq_iterate]

/-- The bitwise fold is a permutation in the input byte. -/
theorem foldBitwise_bijective_right (a : Byte) : Function.Bijective fun b => foldBitwise a b := by
  simp only [foldBitwise_comm a]
  exact foldBitwise_bijective_left a

/-- The ROM is a permutation: its entries are the folds from zero (41_table_rom.md R53). -/
theorem romRead_bijective : Function.Bijective romRead := by
  rw [funext romRead_eq]
  exact foldBitwise_bijective_right 0x00#8

/-- Entry 0 is the only one that holds zero. -/
theorem romRead_eq_zero_iff (i : Byte) : romRead i = 0x00#8 ↔ i = 0x00#8 := by
  rw [← romRead_bijective.injective.eq_iff (a := i), romRead_zero]

/-- The only entries that hold their own index (43_commands.md R64). -/
theorem romRead_eq_self_iff : ∀ i : Byte, romRead i = i ↔ i = 0x00#8 ∨ i = 0xFD#8 := by
  decide

/-! ## The fold of a build, in the corner cases -/

/-- Equal operands fold to zero in either build. -/
@[simp] theorem fold_self (c : Config) (a : Byte) : fold c a a = 0x00#8 :=
  (fold_eq c a a).trans (foldBitwise_self a)

/-- From a zero accumulator the fold is the ROM's entry for the byte, in either build (43_commands.md R65). -/
@[simp] theorem fold_zero_left (c : Config) (d : Byte) : fold c 0x00#8 d = romRead d :=
  (fold_eq c 0x00#8 d).trans (romRead_eq d).symm

/-- A zero byte gives the ROM's entry for the accumulator, in either build (43_commands.md R64). -/
@[simp] theorem fold_zero_right (c : Config) (a : Byte) : fold c a 0x00#8 = romRead a := by
  rw [fold_eq, foldBitwise_comm, ← romRead_eq]

/-! ## UPDATE -/

/-- UPDATE folds its byte into the accumulator and changes nothing else (43_commands.md R64). -/
theorem exec_update (d : Byte) (s : State) : exec (.update d) s = .next { s with acc := fold s.build s.acc d } :=
  exec_eq (.update d) s

/-- Settles O9: either build computes the bitwise fold, which is a permutation of its operand; entry 0 alone of the ROM holds
zero, and 0xFD is the only other fixed point. -/
theorem updateFoldsTheByte : Obligations.UpdateFoldsTheByte := by
  unfold Obligations.UpdateFoldsTheByte
  refine ⟨exec_update, fun d => ⟨decode_update_add d, encode_update d⟩, fun a d => ?variants, fold_self,
    fun c a ha => ?zero_byte, fun c => ?twice, fun c d => ?bijective_left, fun c a => ?bijective_right,
    fun s hacc => ?example_of_rule⟩
  case variants =>
    exact ⟨foldBitwise_eq_iterate a d, fold_of_table_build a d, (foldTable_eq a d).trans (foldBitwise_eq_iterate a d)⟩
  case zero_byte =>
    exact ⟨fold_zero_right c a, mt (romRead_eq_zero_iff a).mp ha, (romRead_eq_self_iff a).trans (or_iff_right ha)⟩
  case twice =>
    rw [fold_eq, fold_eq]
    decide
  case bijective_left =>
    simp only [fold_eq]
    exact foldBitwise_bijective_left d
  case bijective_right =>
    simp only [fold_eq]
    exact foldBitwise_bijective_right a
  case example_of_rule =>
    have hfold : foldBitwise 0x05#8 0x06#8 = 0x09#8 := foldBitwise_along_vectors.2.1
    have hword : decode 0x106#10 = .update 0x06#8 := decode_update_add 0x06#8
    constructor
    · rw [step_present, hword, exec_update, hacc, fold_eq, hfold]
    · exact (foldTable_eq 0x05#8 0x06#8).trans hfold

/-! ## START -/

/-- START leaves the fold of its byte from zero and changes nothing else (43_commands.md R65). -/
theorem exec_start (d : Byte) (s : State) : exec (.start d) s = .next { s with acc := fold s.build 0x00#8 d } :=
  exec_eq (.start d) s

/-- Settles O10: the effect does not mention the old accumulator, and a fold from zero is an entry of the ROM. -/
theorem startInitialisesThenFolds : Obligations.StartInitialisesThenFolds := by
  unfold Obligations.StartInitialisesThenFolds
  refine ⟨fun d s => ⟨exec_start d s, fold_zero_left s.build d⟩, fun d => ⟨decode_start_add d, encode_start d⟩,
    fun d a s => ?independent, fun s => ?zero_byte, fun s => ?example_of_rule⟩
  case independent => rw [exec_start, exec_start]
  case zero_byte => rw [exec_start, fold_self]
  case example_of_rule =>
    have hfold : foldBitwise 0x00#8 0xB4#8 = 0x05#8 := foldBitwise_along_vectors.1
    have hword : decode 0x3B4#10 = .start 0xB4#8 := decode_start_add 0xB4#8
    rw [step_present, hword, exec_start, fold_eq, hfold]

/-! ## Runs -/

/-- Settles O32: the equations are the definition's, the closed form of a machine run gives its result, and a step answers a
next state whatever the state a run has left. -/
theorem runAppliesTheWordsInOrder : Obligations.RunAppliesTheWordsInOrder := by
  unfold Obligations.RunAppliesTheWordsInOrder
  exact ⟨fun _ _ => rfl, fun _ _ _ _ => rfl, core_run_presents, fun _ t _ w _ => ⟨_, step_eq (t.present w)⟩⟩

end Sys2Proof.Machine

/-! PROOF. No exception and no refusal: every command and every step answers a next state (60_exceptions.md R73). -/

namespace Sys2Proof.Machine

/-- Whatever stands on the ports, a step answers a next state. -/
theorem step_completes (s : State) : Safety.StepCompletes s := ⟨_, step_eq s⟩

/-- Settles O5: a command answers the state with the accumulator written, a step on a presented word answers what the word's
command does, and a step on whatever the host presents, reset or nothing among them, completes. -/
theorem noCommandFaultsOrIsRefused : Obligations.NoCommandFaultsOrIsRefused := by
  unfold Obligations.NoCommandFaultsOrIsRefused
  refine ⟨fun i s => ?command, fun s w => ?presented_word, step_completes⟩
  case command => exact ⟨_, exec_eq i s⟩
  case presented_word => exact ⟨_, (step_present s w).trans (exec_eq (decode w) s)⟩

end Sys2Proof.Machine

/-! PROOF. Reset takes precedence over the command presented in the same step (70_reset_and_hazards.md R84, R85). -/

namespace Sys2Proof.Machine

/-- A step with `rst` asserted takes its input and applies the reset event; the command word is not looked at. -/
theorem step_of_rst (s : State) (h : s.presented.rst = true) : step s = .next s.taken.applyReset := if_pos h

/-- Settles O2: reset alone decides the step, and what it leaves is what CLEAR leaves from the state with the input taken. -/
theorem resetBeatsTheCommandOfItsStep : Obligations.ResetBeatsTheCommandOfItsStep := by
  unfold Obligations.ResetBeatsTheCommandOfItsStep
  intro s w rest hpending
  obtain ⟨hpresented, htaken⟩ := s.presented_cons _ rest hpending
  refine ⟨?reset_step, State.crc_eq_acc _, exec_clear { s with pending := rest }⟩
  case reset_step =>
    have hrst : s.presented.rst = true := congrArg PortInput.rst hpresented
    rw [step_of_rst s hrst, htaken]
    rfl

end Sys2Proof.Machine

/-! PROOF. The round trip between commands and words (30_encoding.md R29 to R31), and what a step does with a word. -/

namespace Sys2Proof

/-- The strobe `en` is bit 8 of the word (30_encoding.md R29). -/
theorem getLsbD_eight_ofFields (clr en : Bool) (d : Byte) : (CmdWord.ofFields clr en d).getLsbD 8 = en :=
  (CmdWord.fields_ofFields clr en d).2.1

/-- Encoding the command of a word keeps its strobes, and its `din` where `en` is set (30_encoding.md R31). -/
theorem encode_decode_ofFields (clr en : Bool) (d : Byte) :
    encode (decode (CmdWord.ofFields clr en d)) = CmdWord.ofFields clr en (if en then d else 0x00#8) := by
  cases clr <;> cases en <;> simp [encode]

/-- Settles O17: one direction is the decoder on canonical words; for the other a word is its fields, and clearing the ignored
bits is masking the strobes. -/
theorem decodeAndEncodeAgree : Obligations.DecodeAndEncodeAgree := by
  unfold Obligations.DecodeAndEncodeAgree
  refine ⟨fun i _ => decode_encode i, fun w => ?word⟩
  case word =>
    induction w using CmdWord.forall_of_fields with
    | h clr en d =>
      rw [encode_decode_ofFields, getLsbD_eight_ofFields, ofFields_and_mask]
      cases en <;> rfl

/-- Settles O18: six closed words, each evaluated by the decoder. -/
theorem listedWordsDecode : Obligations.ListedWordsDecode := by
  unfold Obligations.ListedWordsDecode
  decide

end Sys2Proof

namespace Sys2Proof.Machine

/-- Settles O3: without reset the step is `exec` by definition, and a canonical word decodes to its command. -/
theorem stepRunsTheDecodedCommand : Obligations.StepRunsTheDecodedCommand := by
  unfold Obligations.StepRunsTheDecodedCommand
  refine ⟨fun s w rest hpending => ?waiting, fun s i _ => ?canonical⟩
  case waiting =>
    obtain ⟨hpresented, htaken⟩ := s.presented_cons _ rest hpending
    simp [step, hpresented, htaken]
  case canonical => rw [step_present, decode_encode]

/-- Settles O11: CLEAR leaves the zero from which START folds. -/
theorem startIsClearThenUpdate : Obligations.StartIsClearThenUpdate := by
  unfold Obligations.StartIsClearThenUpdate
  intro d s
  exact ⟨_, exec_clear s, (exec_update d _).trans (exec_start d s).symm⟩

/-- An input without reset does what its command does. -/
theorem execInput_of_not_rst (c : Config) (acc : Byte) {p : PortInput} (h : p.rst = false) :
    execInput c acc p = accAfter c acc (decode p.cmd) := by
  simp [execInput, h, execWord_eq]

/-- An input without reset that spells HOLD leaves the accumulator as it is. -/
theorem execInput_of_hold (c : Config) (acc : Byte) {p : PortInput} (hrst : p.rst = false) (hcmd : decode p.cmd = .hold) :
    execInput c acc p = acc := by
  rw [execInput_of_not_rst c acc hrst, hcmd, accAfter]

/-- An input that changes the accumulator presents reset or one of the three commands that write it (10_state.md R9). -/
theorem writes_of_execInput_ne {c : Config} {acc : Byte} {p : PortInput} (h : execInput c acc p ≠ acc) :
    p.rst = true ∨ decode p.cmd = .clear ∨ ∃ b, decode p.cmd = .update b ∨ decode p.cmd = .start b := by
  cases hrst : p.rst with
  | true => exact .inl rfl
  | false =>
    right
    cases hcmd : decode p.cmd with
    | hold => exact absurd (execInput_of_hold c acc hrst hcmd) h
    | update b => exact .inr ⟨b, .inl rfl⟩
    | clear => exact .inl rfl
    | start b => exact .inr ⟨b, .inr rfl⟩

/-- Settles O6: a step is known in closed form; a silent host keeps the accumulator, and so does an input that spells HOLD. -/
theorem onlyResetClearUpdateStartWriteTheAccumulator : Obligations.OnlyResetClearUpdateStartWriteTheAccumulator := by
  unfold Obligations.OnlyResetClearUpdateStartWriteTheAccumulator
  intro s t hstep
  rw [step_eq] at hstep
  cases hstep
  refine ⟨rfl, rfl, fun hne => ?written⟩
  case written =>
    cases hpending : s.pending with
    | nil =>
      rw [(s.idle hpending).1] at hne
      exact absurd (execInput_of_hold (p := idleInput) s.build s.acc rfl (decode_encode .hold)) hne
    | cons p rest =>
      rw [(s.presented_cons p rest hpending).1] at hne
      exact ⟨p, rest, rfl, writes_of_execInput_ne hne⟩

end Sys2Proof.Machine

/-! PROOF. The accumulator invariant (10_state.md section 2, 43_commands.md section 5): `ACC` is the PEC of the bytes folded in
since the last initialisation. -/

namespace Sys2Proof.Machine

/-- The PEC of a message in two parts folds the second part in, from the PEC of the first. -/
theorem pec_append (c : Config) (s t : List Byte) : pec c (s ++ t) = t.foldl (fold c) (pec c s) := by
  rw [pec_eq_foldl, pec_eq_foldl, List.foldl_append]

/-- One more byte is one more fold. -/
theorem pec_snoc (c : Config) (s : List Byte) (b : Byte) : pec c (s ++ [b]) = fold c (pec c s) b :=
  pec_append c s [b]

/-- The PEC of a one-byte message is one fold from `INIT`. -/
theorem pec_singleton (c : Config) (b : Byte) : pec c [b] = fold c 0x00#8 b :=
  pec_eq_foldl c [b]

/-- An input does to the PEC of the bytes so far what it does to those bytes: this is what a step preserves. -/
theorem execInput_pec (c : Config) (bytes : List Byte) (p : PortInput) :
    execInput c (pec c bytes) p = pec c (absorb bytes p) := by
  cases hrst : p.rst with
  | true => simp [execInput, absorb, hrst]
  | false =>
    rw [execInput_of_not_rst c _ hrst]
    simp only [absorb, hrst, Bool.false_eq_true, if_false]
    cases decode p.cmd with
    | hold => rfl
    | update b => exact (pec_snoc c bytes b).symm
    | clear => exact (pec_nil c).symm
    | start b => exact (pec_singleton c b).symm

/-- Settles O36: the step takes the waiting input, and that input keeps the invariant; with no input waiting nothing changes. -/
theorem everyStepKeepsAccThePecSinceInitialisation : Obligations.EveryStepKeepsAccThePecSinceInitialisation := by
  unfold Obligations.EveryStepKeepsAccThePecSinceInitialisation
  intro hist s hacc
  refine ⟨fun p rest hpending => ⟨_, step_eq s, ?taken, ?invariant⟩, fun hpending => ⟨s, step_idle s hpending, hacc⟩⟩
  case taken => exact congrArg List.tail hpending
  case invariant =>
    calc execInput s.build s.acc s.presented
        = execInput s.build (pec s.build (bytesSinceInit hist)) p := by
          rw [(s.presented_cons p rest hpending).1, hacc]
      _ = pec s.build (absorb (bytesSinceInit hist) p) := execInput_pec ..
      _ = pec s.build (bytesSinceInit (hist ++ [p])) := by rw [bytesSinceInit_snoc]

/-- Settles O37: the reset value is `INIT`, the PEC of no bytes. -/
theorem accIsThePecOfNothingAfterReset : Obligations.AccIsThePecOfNothingAfterReset := by
  unfold Obligations.AccIsThePecOfNothingAfterReset
  exact ⟨(pec_nil State.reset.build).symm, fun s => (pec_nil s.build).symm⟩

end Sys2Proof.Machine

/-! PROOF. The fold is linear over XOR (40_bitwise_engine.md R46), and what follows from that: the parallel form (R45), the
linearity of the PEC and of the ROM (41_table_rom.md R53). -/

namespace Sys2Proof.Machine

/-! ## Linearity over XOR -/

/-- The bit step distributes over XOR: each result bit is an XOR of operand bits. -/
theorem lfsrShift_xor (p q : Byte) : lfsrShift (p ^^^ q) = lfsrShift p ^^^ lfsrShift q := by
  apply BitVec.eq_of_getLsbD_eq
  intro i hi
  rw [BitVec.getLsbD_xor, getLsbD_lfsrShift _ hi, getLsbD_lfsrShift _ hi, getLsbD_lfsrShift _ hi]
  simp only [BitVec.getLsbD_xor, Bool.and_xor_distrib_left, Bool.and_xor_distrib_right,
    Bool.xor_assoc, Bool.xor_left_comm]

/-- So does any number of bit steps. -/
theorem iterate_lfsrShift_xor (n : Nat) (p q : Byte) :
    lfsrShift^[n] (p ^^^ q) = lfsrShift^[n] p ^^^ lfsrShift^[n] q := by
  induction n generalizing p q with
  | zero => rfl
  | succ n ih => simp only [Function.iterate_succ_apply, lfsrShift_xor, ih]

/-- The fold is linear in its two operands together (40_bitwise_engine.md R46). -/
theorem foldBitwise_xor_xor (a b p q : Byte) :
    foldBitwise (a ^^^ b) (p ^^^ q) = foldBitwise a p ^^^ foldBitwise b q := by
  have hpairs : a ^^^ b ^^^ (p ^^^ q) = (a ^^^ p) ^^^ (b ^^^ q) := by ac_rfl
  rw [foldBitwise_eq_iterate, hpairs, iterate_lfsrShift_xor, ← foldBitwise_eq_iterate, ← foldBitwise_eq_iterate]

/-- The fold from zero distributes over XOR. -/
theorem foldBitwise_zero_linear (p q : Byte) :
    foldBitwise 0x00#8 (p ^^^ q) = foldBitwise 0x00#8 p ^^^ foldBitwise 0x00#8 q :=
  foldBitwise_xor_xor 0x00#8 0x00#8 p q

/-- The two operands contribute to the fold apart from each other. -/
theorem foldBitwise_split (a b : Byte) : foldBitwise a b = foldBitwise a 0x00#8 ^^^ foldBitwise 0x00#8 b := by
  rw [← foldBitwise_xor_xor, BitVec.xor_zero, BitVec.zero_xor]

/-- Folding in the XOR of two messages of equal length, from the XOR of two accumulators, is the XOR of the two folds. -/
theorem foldl_foldBitwise_zipWith_xor (a b : Byte) {s t : List Byte} (h : s.length = t.length) :
    (List.zipWith (· ^^^ ·) s t).foldl foldBitwise (a ^^^ b) = s.foldl foldBitwise a ^^^ t.foldl foldBitwise b := by
  induction s generalizing t a b with
  | nil =>
    obtain rfl := List.eq_nil_of_length_eq_zero h.symm
    rfl
  | cons p s ih =>
    obtain ⟨q, t, rfl⟩ := List.exists_cons_of_length_eq_add_one h.symm
    rw [List.zipWith_cons_cons, List.foldl_cons, foldBitwise_xor_xor]
    exact ih _ _ (Nat.succ.inj h)

/-- Settles O22: the bit step is linear bit by bit, the fold is an iterate of it, and a message is folded from the zero that is
the XOR of two zeros. -/
theorem foldAndPecAreLinear : Obligations.FoldAndPecAreLinear := by
  unfold Obligations.FoldAndPecAreLinear
  exact ⟨lfsrShift_xor, foldBitwise_zero_linear, foldBitwise_split,
    fun _ _ h => foldl_foldBitwise_zipWith_xor 0x00#8 0x00#8 h⟩

/-- Settles O23: the stated inverse undoes the bit step, and a fold is an XOR with one operand followed by eight bit steps. -/
theorem foldIsBijectiveInEachOperand : Obligations.FoldIsBijectiveInEachOperand := by
  unfold Obligations.FoldIsBijectiveInEachOperand
  exact ⟨lfsrUnshift_inverse, foldBitwise_bijective_left, foldBitwise_bijective_right⟩

/-! ## The parallel form -/

/-- The constants of the parallel form are the folds of the bytes with one bit set (40_bitwise_engine.md R45). -/
theorem zip_parallelConstants :
    (List.range 8).zip parallelConstants = (List.range 8).map fun j => (j, foldBitwise 0x00#8 (BitVec.twoPow 8 j)) := by
  decide

/-- A byte is the XOR of its bits. -/
theorem foldl_xor_twoPow : ∀ x : Byte,
    (List.range 8).foldl (fun c j => if x.getLsbD j then c ^^^ BitVec.twoPow 8 j else c) 0x00#8 = x := by
  decide

/-- The fold from zero is the parallel form: by linearity it is the XOR of the folds of the operand's bits. -/
theorem foldBitwise_zero_eq_foldParallel (x : Byte) : foldBitwise 0x00#8 x = foldParallel x := by
  rw [foldParallel, zip_parallelConstants, List.foldl_map]
  conv_lhs => rw [← foldl_xor_twoPow x]
  refine (List.foldl_hom (foldBitwise 0x00#8) fun c j => ?_).symm
  split
  · exact (foldBitwise_zero_linear c _).symm
  · rfl

/-- A bit of the parallel form is the XOR of the operand bits whose constants have it: a column of the constants. -/
theorem getLsbD_foldParallel (x : Byte) (i : Nat) :
    (foldParallel x).getLsbD i =
      ((List.range 8).zip parallelConstants).foldl (fun r jk => r ^^ (x.getLsbD jk.1 && jk.2.getLsbD i)) false := by
  have hzero : (0x00#8).getLsbD i = false := BitVec.getLsbD_zero
  rw [foldParallel, ← hzero]
  refine (List.foldl_hom (fun c : Byte => c.getLsbD i) fun c jk => ?_).symm
  cases x.getLsbD jk.1 <;> simp

/-- Settles O21: the fold reads its operands through their XOR, linearity gives the parallel form, and each bit equation is one
column of the constants. -/
theorem parallelFormEqualsTheFold : Obligations.ParallelFormEqualsTheFold := by
  unfold Obligations.ParallelFormEqualsTheFold
  intro a b
  have hparallel : foldBitwise a b = foldParallel (a ^^^ b) :=
    (foldBitwise_zero_xor a b).symm.trans (foldBitwise_zero_eq_foldParallel _)
  refine ⟨(foldBitwise_zero_xor a b).symm, ?left_operand, hparallel, fun x c hx hc => ?bit_equations⟩
  case left_operand => rw [foldBitwise_comm (a ^^^ b), foldBitwise_zero_xor]
  case bit_equations =>
    obtain rfl : c = foldParallel x := by rw [hc, hparallel, hx]
    have hpositions : List.range 8 = [0, 1, 2, 3, 4, 5, 6, 7] := by decide
    simp only [getLsbD_foldParallel, parallelConstants, hpositions, List.zip_cons_cons, List.zip_nil_left, List.foldl_cons,
      List.foldl_nil, BitVec.reduceGetLsb, Bool.and_true, Bool.and_false, Bool.xor_false, Bool.false_xor, Bool.xor_comm,
      Bool.xor_assoc, and_self]

/-! ## The ROM -/

/-- The ROM distributes over XOR (41_table_rom.md R53). -/
theorem romRead_xor (p q : Byte) : romRead (p ^^^ q) = romRead p ^^^ romRead q := by
  simp only [romRead_eq, foldBitwise_zero_linear]

/-- The listed entries XOR to zero (41_table_rom.md R51). -/
theorem romListing_foldl_xor : romListing.foldl (· ^^^ ·) 0x00#8 = 0x00#8 := by
  have hrows : ∀ row ∈ [romRow0, romRow1, romRow2, romRow3, romRow4, romRow5, romRow6, romRow7, romRow8, romRow9, romRowA,
      romRowB, romRowC, romRowD, romRowE, romRowF], row.foldl (· ^^^ ·) 0x00#8 = 0x00#8 := by decide
  simp [romListing, hrows]

/-- Settles O28: a read of the ROM is the fold from zero, which is linear and bijective; the check sum and the fixed points are
read off the listing. -/
theorem romIsALinearPermutation : Obligations.RomIsALinearPermutation := by
  unfold Obligations.RomIsALinearPermutation
  exact ⟨romRead_zero, romRead_xor, romRead_bijective, romListing_foldl_xor, romRead_eq_self_iff⟩

/-- Two tables with the same reads are the same table. -/
theorem table_ext {t u : Table} (h : ∀ i : Byte, tableRead t i = tableRead u i) : t = u :=
  Vector.ext fun i hi => h (BitVec.ofFin ⟨i, hi⟩)

/-- Settles O27: a read of either table is the fold of the index from zero. -/
theorem romHoldsTheGeneratedTable : Obligations.RomHoldsTheGeneratedTable := by
  unfold Obligations.RomHoldsTheGeneratedTable
  exact table_ext fun i => (romRead_eq i).trans (tableRead_buildTable_eq_fold i).symm

end Sys2Proof.Machine

/-! PROOF. What a PEC shows of its message: leading zeros (40_bitwise_engine.md R40), the residue of the received PEC byte and
the detection of a changed byte (43_commands.md R70, R71). -/

namespace Sys2Proof.Machine

/-! ## One PEC for all engines -/

/-- The PEC does not depend on the build: either fold is the bitwise one (43_commands.md R67). -/
theorem pec_eq_pecBitwise (c : Config) (s : List Byte) : pec c s = pecBitwise s := by
  have hfold : fold c = foldBitwise := funext fun a => funext fun b => fold_eq c a b
  rw [pec_eq_foldl, hfold, pecBitwise]

/-- The table-driven build delegates to the table-driven engine, which so computes the bitwise PEC from the ROM
(42_table_engine.md R58). -/
theorem pecTable_rom (s : List Byte) : pecTable s rom = pecBitwise s :=
  pec_eq_pecBitwise { lookupTable := true } s

/-! ## Leading zeros -/

/-- A leading zero byte folds `INIT` to `INIT`. -/
theorem pecBitwise_zero_cons (s : List Byte) : pecBitwise (0x00#8 :: s) = pecBitwise s := by
  rw [pecBitwise, List.foldl_cons, foldBitwise_self, pecBitwise]

/-- Any number of leading zero bytes is neutral, one after the other. -/
theorem pecBitwise_replicate_zero_append (n : Nat) (s : List Byte) :
    pecBitwise (List.replicate n 0x00#8 ++ s) = pecBitwise s := by
  induction n with
  | zero => rfl
  | succ n ih => rw [List.replicate_succ, List.cons_append, pecBitwise_zero_cons, ih]

/-- Settles O25: zero bytes leave `INIT` alone, and the table-driven engine computes the same PEC. -/
theorem leadingZeroBytesAreNeutral : Obligations.LeadingZeroBytesAreNeutral := by
  unfold Obligations.LeadingZeroBytesAreNeutral
  intro n s
  have hbitwise := pecBitwise_replicate_zero_append n s
  exact ⟨hbitwise, by rw [pecTable_rom, pecTable_rom, hbitwise]⟩

/-! ## The received PEC byte -/

/-- The fold of a byte is zero only where the byte equals the accumulator: the fold is injective in the byte. -/
theorem foldBitwise_eq_zero_iff (a b : Byte) : foldBitwise a b = 0x00#8 ↔ b = a := by
  rw [← foldBitwise_self a]
  exact (foldBitwise_bijective_right a).injective.eq_iff

/-- Settles O39: the last fold is the one of the received byte into the PEC of the others. -/
theorem residueIsZeroExactlyForThePec : Obligations.ResidueIsZeroExactlyForThePec := by
  unfold Obligations.ResidueIsZeroExactlyForThePec
  intro c s b
  rw [pec_snoc, fold_eq]
  exact foldBitwise_eq_zero_iff (pec c s) b

/-! ## A changed byte -/

/-- Folding a given message in never merges two accumulators. -/
theorem foldl_foldBitwise_injective (v : List Byte) : Function.Injective fun a => v.foldl foldBitwise a := by
  induction v with
  | nil => exact fun _ _ h => h
  | cons b v ih => exact ih.comp (foldBitwise_bijective_left b).injective

/-- Two messages that differ in one byte have different PECs: their folds part at that byte and never meet again. -/
theorem pec_ne_of_byte_ne (c : Config) (u v : List Byte) {x y : Byte} (h : x ≠ y) :
    pec c (u ++ x :: v) ≠ pec c (u ++ y :: v) := by
  simp only [pec_eq_pecBitwise, pecBitwise_append, List.foldl_cons]
  exact (foldl_foldBitwise_injective v).ne ((foldBitwise_bijective_right _).injective.ne h)

/-- Lists of equal length that differ at one position have the parts before and after it in common. -/
theorem exists_append_of_ne_at {α : Type} {s t : List α} {k : Nat} (hlen : s.length = t.length) (hne : s[k]? ≠ t[k]?)
    (heq : ∀ j, j ≠ k → s[j]? = t[j]?) : ∃ u v x y, x ≠ y ∧ s = u ++ x :: v ∧ t = u ++ y :: v := by
  induction s generalizing t k with
  | nil =>
    obtain rfl := List.eq_nil_of_length_eq_zero hlen.symm
    exact absurd rfl hne
  | cons x s ih =>
    obtain ⟨y, t, rfl⟩ := List.exists_cons_of_length_eq_add_one hlen.symm
    cases k with
    | zero =>
      obtain rfl : s = t := List.ext_getElem? fun j => heq (j + 1) (Nat.succ_ne_zero j)
      exact ⟨[], s, x, y, fun hxy => hne (congrArg some hxy), rfl, rfl⟩
    | succ k =>
      obtain rfl : x = y := Option.some.inj (heq 0 (Nat.zero_ne_add_one k))
      obtain ⟨u, v, a, b, hab, rfl, rfl⟩ :=
        ih (Nat.succ.inj hlen) hne fun j hj => heq (j + 1) (mt Nat.succ.inj hj)
      exact ⟨x :: u, v, a, b, hab, rfl, rfl⟩

/-- Each of the eight one-bit bytes is nonzero. -/
theorem one_shiftLeft_ne_zero : ∀ j < 8, (0x01#8 : Byte) <<< j ≠ 0x00#8 := by
  decide

/-- Flipping one bit changes a byte. -/
theorem xor_one_shiftLeft_ne (b : Byte) {j : Nat} (hj : j < 8) : b ^^^ (0x01#8 <<< j) ≠ b := by
  intro h
  exact one_shiftLeft_ne_zero j hj ((BitVec.xor_right_inj b).mp (h.trans BitVec.xor_zero.symm))

/-- Settles O40: both forms are messages that part at one byte. -/
theorem oneChangedByteChangesThePec : Obligations.OneChangedByteChangesThePec := by
  unfold Obligations.OneChangedByteChangesThePec
  refine ⟨fun c s t k hlen hne heq => ?position, fun c u v b j hj => ?bit⟩
  case position =>
    obtain ⟨u, v, x, y, hxy, rfl, rfl⟩ := exists_append_of_ne_at hlen hne heq
    exact pec_ne_of_byte_ne c u v hxy
  case bit =>
    rw [List.append_assoc, List.append_assoc]
    exact pec_ne_of_byte_ne c u v (xor_one_shiftLeft_ne b hj)

end Sys2Proof.Machine

/-! PROOF. Runs over messages (43_commands.md R62, R66 to R68, R72, 70_reset_and_hazards.md R85, R86): the machine composes its
inputs, HOLD is neutral, and a framed message leaves its PEC. -/

namespace Sys2Proof.Machine

open Sys2Proof.Safety

/-! ## The machine composes its inputs -/

/-- The machine takes the first inputs of a longer list, and leaves the rest to come. -/
theorem core_run_pending_append (s : State) (ps rest : List PortInput) :
    Host.Core.run core ps.length { s with pending := ps ++ rest } =
      .next { s with acc := runInputs s.build s.acc ps, pending := rest } := by
  rw [core_run_eq]
  simp only [List.take_left, List.drop_left]

/-- Settles O33: this is the closed form of a machine run over the first inputs of the host's list. -/
theorem runComposesResetsAndCommands : Obligations.RunComposesResetsAndCommands := by
  unfold Obligations.RunComposesResetsAndCommands
  exact core_run_pending_append

/-- The same for words without reset. -/
theorem core_run_presents_append (s : State) (ws rest : List CmdWord) :
    Host.Core.run core ws.length (presents s (ws ++ rest)) =
      .next (presents { s with acc := run s.build s.acc ws } rest) := by
  have h := core_run_pending_append s (ws.map asInput) (rest.map asInput)
  rw [runInputs_asInput, List.length_map, ← List.map_append] at h
  exact h

/-- A run of words does to the accumulator what their commands do, one after the other. -/
theorem run_eq_foldl_decode (c : Config) (acc : Byte) (ws : List CmdWord) :
    run c acc ws = (ws.map decode).foldl (accAfter c) acc := by
  induction ws generalizing acc with
  | nil => rfl
  | cons w rest ih => rw [run, execWord_eq, ih, List.map_cons, List.foldl_cons]

/-! ## HOLD is neutral -/

/-- A run of spellings of HOLD leaves the accumulator as it is. -/
theorem run_holds (c : Config) (acc : Byte) {hs : List CmdWord} (h : ∀ w ∈ hs, decode w = .hold) :
    run c acc hs = acc := by
  induction hs with
  | nil => rfl
  | cons w rest ih =>
    obtain ⟨hw, hrest⟩ := List.forall_mem_cons.mp h
    rw [run, execWord_eq, hw]
    exact ih hrest

/-- Settles O34: the run up to the insertion leaves an accumulator that the inserted words keep. -/
theorem insertedHoldsChangeNothing : Obligations.InsertedHoldsChangeNothing := by
  unfold Obligations.InsertedHoldsChangeNothing
  intro c acc xs hs ys hholds
  rw [run_append, run_append, run_holds c _ hholds, ← run_append]

/-! ## Framed messages -/

/-- A command that continues a message folds the byte it hands over, if any. -/
theorem accAfter_of_continues (c : Config) (acc : Byte) {i : Instr} (h : continuesMessage i = true) :
    accAfter c acc i = (messageBytes [i]).foldl (fold c) acc := by
  cases i with
  | hold => rfl
  | update b => rfl
  | clear => cases h
  | start b => cases h

/-- A command that opens a message leaves the PEC of the byte it hands over, if any, whatever stood in the accumulator. -/
theorem accAfter_of_opens (c : Config) (acc : Byte) {i : Instr} (h : opensMessage i = true) :
    accAfter c acc i = pec c (messageBytes [i]) := by
  cases i with
  | hold => cases h
  | update b => cases h
  | clear => exact (pec_nil c).symm
  | start b => exact (pec_singleton c b).symm

/-- The bytes of a message are those of its first command and those of the others. -/
theorem messageBytes_cons (i : Instr) (rest : List Instr) :
    messageBytes (i :: rest) = messageBytes [i] ++ messageBytes rest :=
  List.filterMap_append (l := [i])

/-- Commands that continue a message fold its bytes in order. -/
theorem foldl_accAfter_of_continues (c : Config) (acc : Byte) {is : List Instr} (h : is.all continuesMessage = true) :
    is.foldl (accAfter c) acc = (messageBytes is).foldl (fold c) acc := by
  induction is generalizing acc with
  | nil => rfl
  | cons i rest ih =>
    obtain ⟨hi, hrest⟩ := Bool.and_eq_true_iff.mp h
    rw [messageBytes_cons, List.foldl_append, List.foldl_cons, accAfter_of_continues c acc hi, ih _ hrest]

/-- A framed message leaves the PEC of its bytes, whatever stood in the accumulator (43_commands.md R67). -/
theorem foldl_accAfter_of_framed (c : Config) (acc : Byte) {is : List Instr} (h : framed is = true) :
    is.foldl (accAfter c) acc = pec c (messageBytes is) := by
  cases is with
  | nil => cases h
  | cons i rest =>
    obtain ⟨hopens, hcontinues⟩ := Bool.and_eq_true_iff.mp h
    rw [List.foldl_cons, accAfter_of_opens c acc hopens, foldl_accAfter_of_continues c _ hcontinues,
      messageBytes_cons i rest, pec_append]

/-- UPDATE commands may stand inside a message. -/
theorem all_continuesMessage_updates (m : List Byte) : (updates m).all continuesMessage = true := by
  simp [updates, continuesMessage]

/-- One UPDATE per byte carries these bytes. -/
theorem messageBytes_updates (m : List Byte) : messageBytes (updates m) = m := by
  simp [messageBytes, updates, List.filterMap_map, Function.comp_def, byteOfCommand]

/-- The "clear first" framing of a message is framed and carries its bytes. -/
theorem frameClear_frames (m : List Byte) : framed (frameClear m) = true ∧ messageBytes (frameClear m) = m :=
  ⟨all_continuesMessage_updates m, messageBytes_updates m⟩

/-- So is, and so does, the short framing. -/
theorem frameStart_frames (m : List Byte) : framed (frameStart m) = true ∧ messageBytes (frameStart m) = m := by
  cases m with
  | nil => exact frameClear_frames []
  | cons b rest => exact ⟨all_continuesMessage_updates rest, congrArg (b :: ·) (messageBytes_updates rest)⟩

/-- Settles O35: the machine runs the words, whose commands are a framed message; either framing is one. -/
theorem framedMessageYieldsItsPec : Obligations.FramedMessageYieldsItsPec := by
  unfold Obligations.FramedMessageYieldsItsPec
  refine ⟨fun s ws hframed => ?runs, fun m => ?framings, fun c m => ?engines⟩
  case runs => rw [core_run_presents, run_eq_foldl_decode, foldl_accAfter_of_framed _ _ hframed]
  case framings =>
    obtain ⟨hclear, hclearBytes⟩ := frameClear_frames m
    exact ⟨hclear, hclearBytes, frameStart_frames m⟩
  case engines => exact ⟨pec_eq_pecBitwise c m, (pec_eq_pecBitwise c m).trans (pecTable_rom m).symm⟩

/-- The words of a "clear first" framing are those of the framing of a first part, then one UPDATE per later byte. -/
theorem map_encode_frameClear_append (m n : List Byte) :
    (frameClear (m ++ n)).map encode = (frameClear m).map encode ++ (updates n).map encode := by
  simp [frameClear, updates]

/-- Settles O38: the first words are the framing of the first part, which leaves its PEC. -/
theorem accIsThePecOfThePrefix : Obligations.AccIsThePecOfThePrefix := by
  unfold Obligations.AccIsThePecOfThePrefix
  intro s m n
  have hlength : ((frameClear m).map encode).length = m.length + 1 := by simp [frameClear, updates]
  rw [map_encode_frameClear_append, ← hlength, core_run_presents_append, run_frameClear]

/-- A run of words leaves the same accumulator in every build. -/
theorem run_build_irrelevant (c c' : Config) (acc : Byte) (ws : List CmdWord) : run c acc ws = run c' acc ws := by
  rw [← runInputs_asInput, runInputs_build_irrelevant c c', runInputs_asInput]

/-- After a command that opens a message, neither the build nor the old accumulator shows (43_commands.md R72). -/
theorem run_of_opens (c c' : Config) (acc acc' : Byte) {w : CmdWord} (ws : List CmdWord)
    (h : opensMessage (decode w) = true) : run c acc (w :: ws) = run c' acc' (w :: ws) := by
  rw [run_build_irrelevant c c', run, run, execWord_eq, execWord_eq, accAfter_of_opens c' acc h, accAfter_of_opens c' acc' h]

/-- Settles O41: both runs complete, and `crc` shows what the words leave after their opening command. -/
theorem framedMessageForgetsThePast : Obligations.FramedMessageForgetsThePast := by
  unfold Obligations.FramedMessageForgetsThePast
  intro s s' w ws rest hopens
  exact ⟨_, _, core_run_presents_append s (w :: ws) rest, core_run_presents_append s' (w :: ws) rest,
    run_of_opens s.build s'.build s.acc s'.acc ws hopens⟩

/-- Settles O42: after reset the accumulator is the `INIT` from which the PEC folds the bytes. -/
theorem afterResetUpdatesAloneYieldThePec : Obligations.AfterResetUpdatesAloneYieldThePec := by
  unfold Obligations.AfterResetUpdatesAloneYieldThePec
  intro s m
  have hlength : ((updates m).map encode).length = m.length := by simp [updates]
  rw [← hlength, core_run_presents, run_map_encode, foldl_accAfter_updates, State.applyReset_acc, State.applyReset_build,
    pec_eq_foldl]

end Sys2Proof.Machine

/-! PROOF. The polynomial reading (40_bitwise_engine.md R41): a bit step multiplies by x modulo x^8 + x^2 + x + 1, so a byte step
multiplies by x^8, and the PEC is the remainder of the message's polynomial times x^8. -/

namespace Sys2Proof.Safety

open Sys2Proof.Machine Polynomial

/-! ## A byte as a polynomial -/

/-- A bit as a coefficient. -/
def bitCoeff (b : Bool) : ZMod 2 := if b then 1 else 0

@[simp] theorem bitCoeff_false : bitCoeff false = 0 := rfl

@[simp] theorem bitCoeff_true : bitCoeff true = 1 := rfl

/-- XOR of bits is the sum of their coefficients. -/
theorem bitCoeff_xor : ∀ a b : Bool, bitCoeff (a ^^ b) = bitCoeff a + bitCoeff b := by
  decide

/-- The polynomial of a byte by its coefficients. -/
theorem bytePoly_eq_sum (b : Byte) : bytePoly b = ∑ i ∈ Finset.range 8, C (bitCoeff (b.getLsbD i)) * X ^ i := by
  refine Finset.sum_congr rfl fun i _ => ?_
  cases b.getLsbD i <;> simp

/-- The zero byte is the zero polynomial. -/
@[simp] theorem bytePoly_zero : bytePoly 0x00#8 = 0 := by
  simp [bytePoly_eq_sum]

/-- XOR of bytes is the sum of their polynomials. -/
theorem bytePoly_xor (a b : Byte) : bytePoly (a ^^^ b) = bytePoly a + bytePoly b := by
  simp only [bytePoly_eq_sum, BitVec.getLsbD_xor, bitCoeff_xor, C_add, add_mul, Finset.sum_add_distrib]

/-- The polynomial of a byte has degree below 8. -/
theorem degree_bytePoly_lt (b : Byte) : (bytePoly b).degree < 8 := by
  rw [bytePoly_eq_sum]
  refine (degree_sum_le _ _).trans_lt ((Finset.sup_lt_iff (by decide)).mpr fun i hi => ?_)
  exact (degree_C_mul_X_pow_le i _).trans_lt (by exact_mod_cast Finset.mem_range.mp hi)

/-- A shift to the left multiplies by x and drops the term of bit 7. -/
theorem bytePoly_mul_X_eq_shiftLeft (a : Byte) :
    bytePoly a * X = bytePoly (a <<< 1) + C (bitCoeff (a.getLsbD 7)) * X ^ 8 := by
  have hbits : ∀ i ∈ Finset.range 7, (a <<< 1).getLsbD (i + 1) = a.getLsbD i := by
    intro i hi
    have hlt : i + 1 < 8 := Nat.succ_lt_succ (Finset.mem_range.mp hi)
    rw [BitVec.getLsbD_shiftLeft]
    simp [hlt]
  have hshift : bytePoly (a <<< 1) = ∑ i ∈ Finset.range 7, C (bitCoeff (a.getLsbD i)) * X ^ (i + 1) := by
    rw [bytePoly_eq_sum, Finset.sum_range_succ', Finset.sum_congr rfl fun i hi => by rw [hbits i hi]]
    simp
  rw [hshift, bytePoly_eq_sum, Finset.sum_mul, Finset.sum_range_succ]
  simp only [mul_assoc, ← pow_succ]

/-! ## The generator polynomial -/

/-- The generator polynomial is x^8 and the terms that `POLY` holds (00_scope.md R7). -/
theorem crcPoly_eq : crcPoly = X ^ 8 + bytePoly 0x07#8 := by
  have hpoly : bytePoly 0x07#8 = 1 + X + X ^ 2 := by
    simp [bytePoly, Finset.sum_range_succ]
  rw [crcPoly, hpoly]
  ring

/-- The generator polynomial is monic, since `POLY` has only the terms below x^8. -/
theorem crcPoly_monic : crcPoly.Monic := by
  rw [crcPoly_eq]
  exact monic_X_pow_add (degree_bytePoly_lt 0x07#8)

/-- The generator polynomial has degree 8. -/
theorem degree_crcPoly : crcPoly.degree = 8 := by
  have hlt : (bytePoly 0x07#8).degree < (X ^ 8 : (ZMod 2)[X]).degree := by
    rw [degree_X_pow]
    exact degree_bytePoly_lt 0x07#8
  rw [crcPoly_eq, degree_add_eq_left_of_degree_lt hlt, degree_X_pow]
  rfl

/-- The polynomial of a byte is its own remainder. -/
theorem bytePoly_modByMonic (b : Byte) : bytePoly b %ₘ crcPoly = bytePoly b :=
  (modByMonic_eq_self_iff crcPoly_monic).mpr (degree_crcPoly ▸ degree_bytePoly_lt b)

/-! ## Bit step, byte step and message, modulo the generator polynomial -/

/-- The bit step multiplies by x and takes away the generator polynomial where bit 7 is shifted out. -/
theorem bytePoly_mul_X (a : Byte) :
    bytePoly a * X = bytePoly (lfsrShift a) + C (bitCoeff (a.getLsbD 7)) * crcPoly := by
  rw [bytePoly_mul_X_eq_shiftLeft, lfsrShift_eq]
  cases a.getLsbD 7 with
  | false => simp
  | true =>
    have hcancel : bytePoly 0x07#8 + bytePoly 0x07#8 = 0 := CharTwo.add_self_eq_zero _
    simp only [if_true, bytePoly_xor, crcPoly_eq, bitCoeff_true, C_1, one_mul]
    linear_combination -hcancel

/-- Modulo the generator polynomial `n` bit steps multiply by x^n. -/
theorem mk_bytePoly_iterate_lfsrShift (n : Nat) (a : Byte) :
    AdjoinRoot.mk crcPoly (bytePoly (lfsrShift^[n] a)) = AdjoinRoot.mk crcPoly (bytePoly a * X ^ n) := by
  induction n generalizing a with
  | zero => simp
  | succ n ih =>
    calc AdjoinRoot.mk crcPoly (bytePoly (lfsrShift^[n + 1] a))
        = AdjoinRoot.mk crcPoly (bytePoly (lfsrShift a) * X ^ n) := ih (lfsrShift a)
      _ = AdjoinRoot.mk crcPoly (bytePoly a * X * X ^ n) := by simp [bytePoly_mul_X]
      _ = AdjoinRoot.mk crcPoly (bytePoly a * X ^ (n + 1)) := by rw [mul_assoc, ← pow_succ']

/-- Modulo the generator polynomial the byte step adds its operands and multiplies by x^8. -/
theorem mk_bytePoly_foldBitwise (a b : Byte) :
    AdjoinRoot.mk crcPoly (bytePoly (foldBitwise a b)) = AdjoinRoot.mk crcPoly ((bytePoly a + bytePoly b) * X ^ 8) := by
  rw [foldBitwise_eq_iterate, mk_bytePoly_iterate_lfsrShift, bytePoly_xor]

/-- One more byte makes room for itself and is added. -/
theorem messagePoly_snoc (s : List Byte) (b : Byte) : messagePoly (s ++ [b]) = messagePoly s * X ^ 8 + bytePoly b :=
  List.foldl_concat _ _ b s

/-- The message's polynomial times x^8 is its PEC modulo the generator polynomial, byte after byte. -/
theorem mk_messagePoly (s : List Byte) :
    AdjoinRoot.mk crcPoly (messagePoly s * X ^ 8) = AdjoinRoot.mk crcPoly (bytePoly (pecBitwise s)) := by
  induction s using List.reverseRecOn with
  | nil => simp [messagePoly]
  | append_singleton s b ih =>
    calc AdjoinRoot.mk crcPoly (messagePoly (s ++ [b]) * X ^ 8)
        = (AdjoinRoot.mk crcPoly (messagePoly s * X ^ 8) + AdjoinRoot.mk crcPoly (bytePoly b)) *
            AdjoinRoot.mk crcPoly (X ^ 8) := by rw [messagePoly_snoc, map_mul, map_add]
      _ = AdjoinRoot.mk crcPoly ((bytePoly (pecBitwise s) + bytePoly b) * X ^ 8) := by rw [ih, map_mul, map_add]
      _ = AdjoinRoot.mk crcPoly (bytePoly (pecBitwise (s ++ [b]))) := by
        rw [← mk_bytePoly_foldBitwise, pecBitwise_append]
        rfl

/-- Settles O43: the two polynomials are equal modulo the generator polynomial, and that of the PEC has degree below 8. -/
theorem pecIsThePolynomialRemainder : Obligations.PecIsThePolynomialRemainder := by
  unfold Obligations.PecIsThePolynomialRemainder
  intro s
  have hdvd : crcPoly ∣ messagePoly s * X ^ 8 - bytePoly (pecBitwise s) := AdjoinRoot.mk_eq_mk.mp (mk_messagePoly s)
  rw [modByMonic_eq_of_dvd_sub crcPoly_monic hdvd, bytePoly_modByMonic]

end Sys2Proof.Safety

/-! PROOF. The assembly language (30_encoding.md section 6): the word of a line, and the reading of text. -/

namespace Sys2Proof.Machine

/-- The number of a byte is a `<byte>` of the assembly language. -/
@[simp] theorem isByteNumber_toNat (d : Byte) : isByteNumber d.toNat = true :=
  decide_eq_true d.isLt

/-- UPDATE of a byte's number assembles to the one word of that command. -/
theorem assemble_update (d : Byte) : AsmLine.assemble (.update d.toNat) = some [0x100#10 + d.setWidth 10] := by
  simp [AsmLine.assemble, AsmLine.wellFormed, AsmLine.expand, encode_update]

/-- START of a byte's number assembles to the one word of that command. -/
theorem assemble_start (d : Byte) : AsmLine.assemble (.start d.toNat) = some [0x300#10 + d.setWidth 10] := by
  simp [AsmLine.assemble, AsmLine.wellFormed, AsmLine.expand, encode_start]

/-- A number above 255 is no `<byte>`. -/
theorem isByteNumber_of_gt {n : Nat} (h : 255 < n) : isByteNumber n = false :=
  decide_eq_false (Nat.not_lt.mpr h)

/-- A line that is not well formed assembles to no words. -/
theorem assemble_of_not_wellFormed {l : AsmLine} (h : l.wellFormed = false) : l.assemble = none := by
  simp [AsmLine.assemble, h]

/-- Settles O45: a byte's line gives the command's word, a greater number makes the line ill formed, and the lines of text are
closed and evaluated. -/
theorem assemblyLinesGiveTheirWords : Obligations.AssemblyLinesGiveTheirWords := by
  unfold Obligations.AssemblyLinesGiveTheirWords
  refine ⟨rfl, rfl, fun d => ⟨assemble_update d, assemble_start d⟩, fun n hn => ?refused, ?text, ?pseudo⟩
  case refused =>
    exact ⟨assemble_of_not_wellFormed (isByteNumber_of_gt hn), assemble_of_not_wellFormed (isByteNumber_of_gt hn)⟩
  case text => decide
  case pseudo => decide

end Sys2Proof.Machine
